-- ==== Sys2Proof/Word.lean ====
section
/-! DEFINITION. The word types of the machine, by the widths of spec/00_scope.md R7 and R9. All values are unsigned. -/

namespace Sys2Proof

/-- A byte: a memory cell, a general register, a timer (R7 `V_WIDTH`). -/
abbrev Byte := BitVec 8

/-- A 12-bit value: an address, `I`, `pc`, a stack entry, the field `nnn` (R24, R25, C7; log 1). -/
abbrev Addr := BitVec 12

/-- A 16-bit instruction word (R80). -/
abbrev Word := BitVec 16

/-- A 4-bit field used as a number 0–15: a register index, a row count, a key number (R81, R83, R264). -/
abbrev Nib := Fin 16

end Sys2Proof
end

