-- ==== Sys2Proof/Config.lean ====
section
/-! DEFINITION. What is fixed for one machine: the fixed parameters of spec/00_scope.md R7, the type of the open parameters of
R8 and of the font of spec/10_state.md R31 (their values stand in `State.params`), their defaults, and the free values the
spec leaves to the environment. -/

namespace Sys2Proof.Config

/-- `MEM_SIZE` (R7): addresses 0x000–0xFFF. -/
abbrev memSize : Nat := 4096

/-- `FONT_SIZE` (R7): the font occupies 0x000–0x04F. -/
abbrev fontSize : Nat := 80

/-- `LOAD_ADDR` (R7): where programs are loaded and execution starts. -/
abbrev loadAddr : Nat := 0x200

/-- The longest program `LoadProgram` accepts (70_reset R283). -/
abbrev maxProgram : Nat := 3584

/-- `STACK_DEPTH` (R7, D1). -/
abbrev stackDepth : Nat := 16

/-- `GLYPH_BYTES` (R7). -/
abbrev glyphBytes : Nat := 5

/-- The bytes of a font, in the order of their addresses 0x000–0x04F: glyph d is bytes `5·d` to `5·d + 4` (10_state R31). -/
abbrev Font := Vector Byte fontSize

/-- The 80 bytes the spec gives `FONT` (10_state R31), glyph 0 first. PRESUMED by the spec from general knowledge (log 5). -/
def fontBytes : List Byte :=
  [0xF0, 0x90, 0x90, 0x90, 0xF0,  0x20, 0x60, 0x20, 0x20, 0x70,
   0xF0, 0x10, 0xF0, 0x80, 0xF0,  0xF0, 0x10, 0xF0, 0x10, 0xF0] ++
  [0x90, 0x90, 0xF0, 0x10, 0x10,  0xF0, 0x80, 0xF0, 0x10, 0xF0,
   0xF0, 0x80, 0xF0, 0x90, 0xF0,  0xF0, 0x10, 0x20, 0x40, 0x40] ++
  [0xF0, 0x90, 0xF0, 0x90, 0xF0,  0xF0, 0x90, 0xF0, 0x10, 0xF0,
   0xF0, 0x90, 0xF0, 0x90, 0x90,  0xE0, 0x90, 0xE0, 0x90, 0xE0] ++
  [0xF0, 0x80, 0x80, 0x80, 0xF0,  0xE0, 0x90, 0x90, 0x90, 0xE0,
   0xF0, 0x80, 0xF0, 0x80, 0xF0,  0xF0, 0x80, 0xF0, 0x80, 0x80]

/-- The default of the parameter `FONT` (R7, 10_state R31). -/
def font : Font := ⟨fontBytes.toArray, rfl⟩

/-- `P_TIMER_KEY_OPS` (R8, D8): are the six timer and key instructions in the dispatch table? -/
inductive TimerKeyOps where
  | standard
  | absent
  deriving DecidableEq, Repr

/-- `P_SYS_POLICY` (R8, D7): what `SYS nnn` does. -/
inductive SysPolicy where
  | nop
  | fault
  deriving DecidableEq, Repr

/-- `P_ADDI_FLAG` (R8, D9): what `ADD I, Vx` writes to VF. -/
inductive AddIFlag where
  | preAdd
  | sumOverflow
  deriving DecidableEq, Repr

/-- `P_FONT_WRITE` (R8, D3): what a store into the font region does. -/
inductive FontWrite where
  | fault
  | write
  deriving DecidableEq, Repr

/-- The parameters of a machine: the open parameters of R8 that a rule depends on, and the font, which "a model should take as a
parameter" (10_state R31). A machine's choice of them stands in `State.params`; nothing changes it (log 4). `CYCLES_PER_SECOND` is not here: "no rule depends on it" (R8, log 19). -/
structure Params where
  timerKeyOps : TimerKeyOps
  sysPolicy   : SysPolicy
  addIFlag    : AddIFlag
  fontWrite   : FontWrite
  font        : Font
  deriving DecidableEq, Repr

/-- The spec's defaults (R8, 10_state R31). -/
def defaults : Params where
  timerKeyOps := .standard
  sysPolicy   := .nop
  addIFlag    := .preAdd
  fontWrite   := .fault
  font        := font

/-- FREE VALUE (60_exceptions R265, 42_alu R175, U6; log 6): the random byte of the n-th draw. Nothing constrains it. -/
opaque drawByte : Nat → Byte

/-- FREE VALUE (45_timers_keys R234, U7; log 7): how `choose(P)` picks at the n-th draw. Nothing constrains it. -/
opaque keyChoice : Nat → Nat

end Sys2Proof.Config
end

