-- ==== Sys2Proof/Syntax.lean ====
section
/-! DEFINITION. The instructions: one constructor for each of the 35 rows of spec/opcode_table.json (30_encoding R85), in the
table's order, with the fields its format uses (R81, R82). `SHR` and `SHL` carry no `y`: it is ignored (R88). -/

namespace Sys2Proof

inductive Instr where
  /-- `CLS` (00E0), 44_display R211 -/
  | cls
  /-- `RET` (00EE), 41_control_flow R131 -/
  | ret
  /-- `SYS nnn` (0nnn but 00E0 and 00EE), 41_control_flow R130 -/
  | sys (nnn : Addr)
  /-- `JP nnn` (1nnn), R132 -/
  | jp (nnn : Addr)
  /-- `CALL nnn` (2nnn), R133 -/
  | call (nnn : Addr)
  /-- `SE Vx, kk` (3xkk), R134 -/
  | seImm (x : Nib) (kk : Byte)
  /-- `SNE Vx, kk` (4xkk), R135 -/
  | sneImm (x : Nib) (kk : Byte)
  /-- `SE Vx, Vy` (5xy0), R136 -/
  | seReg (x y : Nib)
  /-- `LD Vx, kk` (6xkk), 42_alu R161 -/
  | ldImm (x : Nib) (kk : Byte)
  /-- `ADD Vx, kk` (7xkk), R163 -/
  | addImm (x : Nib) (kk : Byte)
  /-- `LD Vx, Vy` (8xy0), R162 -/
  | ldReg (x y : Nib)
  /-- `OR Vx, Vy` (8xy1), R164 -/
  | orReg (x y : Nib)
  /-- `AND Vx, Vy` (8xy2), R165 -/
  | andReg (x y : Nib)
  /-- `XOR Vx, Vy` (8xy3), R166 -/
  | xorReg (x y : Nib)
  /-- `ADD Vx, Vy` (8xy4), R170 -/
  | addReg (x y : Nib)
  /-- `SUB Vx, Vy` (8xy5), R171 -/
  | subReg (x y : Nib)
  /-- `SHR Vx` (8xy6), R172 -/
  | shr (x : Nib)
  /-- `SUBN Vx, Vy` (8xy7), R173 -/
  | subnReg (x y : Nib)
  /-- `SHL Vx` (8xyE), R174 -/
  | shl (x : Nib)
  /-- `SNE Vx, Vy` (9xy0), 41_control_flow R137 -/
  | sneReg (x y : Nib)
  /-- `LD I, nnn` (Annn), 43_index_memory R190 -/
  | ldI (nnn : Addr)
  /-- `JP V0, nnn` (Bnnn), 41_control_flow R138 -/
  | jpV0 (nnn : Addr)
  /-- `RND Vx, kk` (Cxkk), 42_alu R175 -/
  | rnd (x : Nib) (kk : Byte)
  /-- `DRW Vx, Vy, n` (Dxyn), 44_display R212 -/
  | drw (x y n : Nib)
  /-- `SKP Vx` (Ex9E), 45_timers_keys R231 -/
  | skp (x : Nib)
  /-- `SKNP Vx` (ExA1), R232 -/
  | sknp (x : Nib)
  /-- `LD Vx, DT` (Fx07), R233 -/
  | ldVxDt (x : Nib)
  /-- `LD Vx, K` (Fx0A), R234 -/
  | ldVxK (x : Nib)
  /-- `LD DT, Vx` (Fx15), R235 -/
  | ldDtVx (x : Nib)
  /-- `LD ST, Vx` (Fx18), R236 -/
  | ldStVx (x : Nib)
  /-- `ADD I, Vx` (Fx1E), 43_index_memory R191 -/
  | addI (x : Nib)
  /-- `LD F, Vx` (Fx29), R192 -/
  | ldF (x : Nib)
  /-- `LD B, Vx` (Fx33), R193 -/
  | ldB (x : Nib)
  /-- `LD [I], Vx` (Fx55), R194 -/
  | ldMemVx (x : Nib)
  /-- `LD Vx, [I]` (Fx65), R195 -/
  | ldVxMem (x : Nib)
  deriving DecidableEq, Repr

end Sys2Proof
end

