-- ==== Sys2Proof/Decode.lean ====
section
/-! DEFINITION. The decoder: the ordered dispatch table of spec/30_encoding.md R85 scanned for its first match (R84, R86), the
fields of R81, and the encoder written from the same table. -/

namespace Sys2Proof

/-- The operand fields the decoder extracts from every word (R81). -/
structure Fields where
  x   : Nib
  y   : Nib
  n   : Nib
  kk  : Byte
  nnn : Addr
  deriving DecidableEq, Repr

/-- Why no instruction is read. -/
inductive DecodeError where
  /-- Fewer than two bytes are left (R80: every instruction is one 16-bit word). -/
  | truncated
  /-- The word matches no entry of the table (R87). -/
  | unknownOpcode (w : Word)
  deriving DecidableEq, Repr

/-- One entry of the dispatch table (R84): mask, matching pattern, the instruction it selects. -/
structure Row where
  mask    : Word
  pattern : Word
  make    : Fields → Instr

/-- The nibble `w[lo+3:lo]` (R9). -/
def nibbleAt (w : Word) (lo : Nat) : Nib :=
  ⟨(w.extractLsb' lo 4).toNat, (w.extractLsb' lo 4).isLt⟩

/-- Field extraction (R81). -/
def fieldsOf (w : Word) : Fields where
  x   := nibbleAt w 8
  y   := nibbleAt w 4
  n   := nibbleAt w 0
  kk  := w.extractLsb' 0 8
  nnn := w.extractLsb' 0 12

/-- An entry matches a word when `(w & mask) == pattern` (R84). -/
def Row.accepts (r : Row) (w : Word) : Bool :=
  w &&& r.mask == r.pattern

/-- Entries 1 to 10 of R85. -/
def rowsControl : List Row :=
  [⟨0xFFFF, 0x00E0, fun _ => .cls⟩,
   ⟨0xFFFF, 0x00EE, fun _ => .ret⟩,
   ⟨0xF000, 0x0000, fun f => .sys f.nnn⟩,
   ⟨0xF000, 0x1000, fun f => .jp f.nnn⟩,
   ⟨0xF000, 0x2000, fun f => .call f.nnn⟩,
   ⟨0xF000, 0x3000, fun f => .seImm f.x f.kk⟩,
   ⟨0xF000, 0x4000, fun f => .sneImm f.x f.kk⟩,
   ⟨0xF00F, 0x5000, fun f => .seReg f.x f.y⟩,
   ⟨0xF000, 0x6000, fun f => .ldImm f.x f.kk⟩,
   ⟨0xF000, 0x7000, fun f => .addImm f.x f.kk⟩]

/-- Entries 11 to 19 of R85. -/
def rowsAlu : List Row :=
  [⟨0xF00F, 0x8000, fun f => .ldReg f.x f.y⟩,
   ⟨0xF00F, 0x8001, fun f => .orReg f.x f.y⟩,
   ⟨0xF00F, 0x8002, fun f => .andReg f.x f.y⟩,
   ⟨0xF00F, 0x8003, fun f => .xorReg f.x f.y⟩,
   ⟨0xF00F, 0x8004, fun f => .addReg f.x f.y⟩,
   ⟨0xF00F, 0x8005, fun f => .subReg f.x f.y⟩,
   ⟨0xF00F, 0x8006, fun f => .shr f.x⟩,
   ⟨0xF00F, 0x8007, fun f => .subnReg f.x f.y⟩,
   ⟨0xF00F, 0x800E, fun f => .shl f.x⟩]

/-- Entries 20 to 24 of R85. -/
def rowsMiddle : List Row :=
  [⟨0xF00F, 0x9000, fun f => .sneReg f.x f.y⟩,
   ⟨0xF000, 0xA000, fun f => .ldI f.nnn⟩,
   ⟨0xF000, 0xB000, fun f => .jpV0 f.nnn⟩,
   ⟨0xF000, 0xC000, fun f => .rnd f.x f.kk⟩,
   ⟨0xF000, 0xD000, fun f => .drw f.x f.y f.n⟩]

/-- Entries 25 to 30 of R85, the timer and key group (45_timers_keys R230). -/
def rowsTimerKey : List Row :=
  [⟨0xF0FF, 0xE09E, fun f => .skp f.x⟩,
   ⟨0xF0FF, 0xE0A1, fun f => .sknp f.x⟩,
   ⟨0xF0FF, 0xF007, fun f => .ldVxDt f.x⟩,
   ⟨0xF0FF, 0xF00A, fun f => .ldVxK f.x⟩,
   ⟨0xF0FF, 0xF015, fun f => .ldDtVx f.x⟩,
   ⟨0xF0FF, 0xF018, fun f => .ldStVx f.x⟩]

/-- Entries 31 to 35 of R85. -/
def rowsIndex : List Row :=
  [⟨0xF0FF, 0xF01E, fun f => .addI f.x⟩,
   ⟨0xF0FF, 0xF029, fun f => .ldF f.x⟩,
   ⟨0xF0FF, 0xF033, fun f => .ldB f.x⟩,
   ⟨0xF0FF, 0xF055, fun f => .ldMemVx f.x⟩,
   ⟨0xF0FF, 0xF065, fun f => .ldVxMem f.x⟩]

/-- The dispatch table in order (R85); under `absent` entries 25 to 30 are removed (R87). -/
def dispatchTable (p : Config.TimerKeyOps) : List Row :=
  rowsControl ++ rowsAlu ++ rowsMiddle ++ (match p with | .standard => rowsTimerKey | .absent => []) ++ rowsIndex

/-- Decoding a word: the first matching entry (R86), or an unknown opcode (R87). -/
def decode (p : Config.TimerKeyOps) (w : Word) : Except DecodeError Instr :=
  match (dispatchTable p).find? (·.accepts w) with
  | some r => .ok (r.make (fieldsOf w))
  | none => .error (.unknownOpcode w)

/-- The word of two bytes in fetch order, big-endian (20_memory R52, R55). -/
def wordOfBytes (hi lo : Byte) : Word := hi ++ lo

/-- The high byte of a word, stored at the lower address (R52). -/
def highByte (w : Word) : Byte := w.extractLsb' 8 8

/-- The low byte of a word, stored at the higher address (R52). -/
def lowByte (w : Word) : Byte := w.extractLsb' 0 8

/-- Decoding from bytes: two bytes are consumed (R80, R89), the rest is returned. -/
def decodeBytes (p : Config.TimerKeyOps) (bytes : List Byte) : Except DecodeError (Instr × List Byte) :=
  match bytes with
  | hi :: lo :: rest => match decode p (wordOfBytes hi lo) with
    | .ok i => .ok (i, rest)
    | .error e => .error e
  | _ => .error .truncated

/-- The word of a table row's bits: bits above `nbits` are 0. -/
def tableWord (nbits w : Nat) : Word := BitVec.ofNat 16 (w % 2 ^ nbits)

/-- The instruction the decoder reads from a row's bits, laid out as memory holds them, the whole table present (the default of
R8). -/
def decodeTableWord (nbits w : Nat) : Option Instr :=
  match decodeBytes .standard [highByte (tableWord nbits w), lowByte (tableWord nbits w)] with
  | .ok (i, _) => some i
  | .error _ => none

/-- A 4-bit field as bits. -/
def nibbleBits (x : Nib) : BitVec 4 := BitVec.ofNat 4 x.val

/-- Format `FA`: `oooo nnnn nnnn nnnn` (R82). -/
def encFA (op : BitVec 4) (nnn : Addr) : Word := op ++ nnn

/-- Formats `FXK` and `FXF`: `oooo xxxx kkkk kkkk` (R82; in `FXF` the low byte is fixed). -/
def encFXK (op : BitVec 4) (x : Nib) (kk : Byte) : Word := op ++ nibbleBits x ++ kk

/-- Formats `FXY`, `FX` and `FXYN`: `oooo xxxx yyyy nnnn` (R82; in `FXY` and `FX` the low nibble is fixed). -/
def encFXYN (op : BitVec 4) (x y : Nib) (n : BitVec 4) : Word := op ++ nibbleBits x ++ nibbleBits y ++ n

/-- The word of an instruction (R82, R85). The ignored `y` of `SHR` and `SHL` is written 0 (R88). -/
def encode (i : Instr) : Word :=
  match i with
  | .cls => 0x00E0
  | .ret => 0x00EE
  | .sys nnn => encFA 0x0 nnn
  | .jp nnn => encFA 0x1 nnn
  | .call nnn => encFA 0x2 nnn
  | .seImm x kk => encFXK 0x3 x kk
  | .sneImm x kk => encFXK 0x4 x kk
  | .seReg x y => encFXYN 0x5 x y 0x0
  | .ldImm x kk => encFXK 0x6 x kk
  | .addImm x kk => encFXK 0x7 x kk
  | .ldReg x y => encFXYN 0x8 x y 0x0
  | .orReg x y => encFXYN 0x8 x y 0x1
  | .andReg x y => encFXYN 0x8 x y 0x2
  | .xorReg x y => encFXYN 0x8 x y 0x3
  | .addReg x y => encFXYN 0x8 x y 0x4
  | .subReg x y => encFXYN 0x8 x y 0x5
  | .shr x => encFXYN 0x8 x 0 0x6
  | .subnReg x y => encFXYN 0x8 x y 0x7
  | .shl x => encFXYN 0x8 x 0 0xE
  | .sneReg x y => encFXYN 0x9 x y 0x0
  | .ldI nnn => encFA 0xA nnn
  | .jpV0 nnn => encFA 0xB nnn
  | .rnd x kk => encFXK 0xC x kk
  | .drw x y n => encFXYN 0xD x y (nibbleBits n)
  | .skp x => encFXK 0xE x 0x9E
  | .sknp x => encFXK 0xE x 0xA1
  | .ldVxDt x => encFXK 0xF x 0x07
  | .ldVxK x => encFXK 0xF x 0x0A
  | .ldDtVx x => encFXK 0xF x 0x15
  | .ldStVx x => encFXK 0xF x 0x18
  | .addI x => encFXK 0xF x 0x1E
  | .ldF x => encFXK 0xF x 0x29
  | .ldB x => encFXK 0xF x 0x33
  | .ldMemVx x => encFXK 0xF x 0x55
  | .ldVxMem x => encFXK 0xF x 0x65

/-- An instruction's word as memory holds it, big-endian (R52). -/
def encodeBytes (i : Instr) : List Byte := [highByte (encode i), lowByte (encode i)]

end Sys2Proof
end

