-- ==== Sys2Proof/Machine/Flags.lean ====
section
/-! DEFINITION. Every value written to VF as a flag (spec/10_state.md R23), as functions of the values before the
instruction. DRW's collision flag is gathered while drawing (Machine/Display.lean). -/

namespace Sys2Proof.Machine

/-- A flag as the byte VF receives: 1 or 0. -/
def flagByte (b : Bool) : Byte := if b then 1 else 0

/-- Carry of an add, "computed from the pre-mask sum" (R160, R170): 1 iff the sum exceeds 255. -/
def carryFlag (sum : Nat) : Byte := flagByte (decide (sum > 255))

/-- The flag of SUB and SUBN (R160, R171, R173): 1 iff minuend > subtrahend, strictly. -/
def greaterFlag (minuend subtrahend : Byte) : Byte := flagByte (decide (minuend.toNat > subtrahend.toNat))

/-- The bit SHR shifts out (R172): bit 0. -/
def shiftedOutRight (a : Byte) : Byte := flagByte (a.getLsbD 0)

/-- The bit SHL shifts out (R174): bit 7. -/
def shiftedOutLeft (a : Byte) : Byte := flagByte (a.getLsbD 7)

/-- The flag of ADD I, Vx (R191): under `preAdd` 1 iff I itself exceeds 0xFFF (never), under `sumOverflow` 1 iff I + Vx does. -/
def addIFlag (p : Config.AddIFlag) (i0 : Addr) (a : Byte) : Byte :=
  match p with
  | .preAdd => flagByte (decide (i0.toNat > 0xFFF))
  | .sumOverflow => flagByte (decide (i0.toNat + a.toNat > 0xFFF))

end Sys2Proof.Machine
end

