-- ==== Sys2Proof/Machine/State.lean ====
section
/-! DEFINITION. The machine's state as plain data: the record of spec/10_state.md R20, and the host interface of
spec/60_exceptions.md R260 as fields (what `Step` is given, what it puts out, what the host calls next). -/

namespace Sys2Proof.Machine

/-- Memory (R27): the bytes that differ from the machine's reset contents, as (address, byte) pairs in canonical form
(`Memory.wf`); an address not listed reads as `Memory.initial` says. -/
abbrev Memory := List Host.Cell

/-- The display buffer (R28): cell `disp[cx][cy]` is column `cx` (0–63) of row `cy` (0–31); `true` is on. -/
abbrev Display := Vector (Vector Bool 32) 64

/-- The fault kinds of 60_exceptions R250. -/
inductive FaultKind where
  | unknownRegister
  | unknownOpcode
  | stackOverflow
  | stackUnderflow
  | addressOutOfRange
  | fontRegionWrite
  | keyIndexOutOfRange
  | sysUnsupported
  deriving DecidableEq, Repr

/-- The `info` of a fault record (R250, R253): the register index, the byte address (a natural, it may be past 0xFFF), or the
key value. -/
inductive FaultInfo where
  | index (n : Nat)
  | addr (a : Nat)
  | value (v : Byte)
  deriving DecidableEq, Repr

/-- The fault record (R253). Its `code` is a function of `kind` (`FaultKind.code`). `instr` is absent when the fetch itself
faults. -/
structure FaultRecord where
  kind  : FaultKind
  instr : Option Word
  pc    : Addr
  info  : Option FaultInfo
  deriving DecidableEq, Repr

/-- What a handler, the fetch or the decoder raises (R10 `raise F(info)`). -/
structure Raise where
  kind : FaultKind
  info : Option FaultInfo
  deriving DecidableEq, Repr

/-- The display events (60_exceptions R262). -/
inductive DisplayEvent where
  | setCell (cx : Fin 64) (cy : Fin 32) (v : Bool)
  | clearAll
  | flush
  deriving DecidableEq, Repr

/-- The host's operations that act on a constructed machine (R260). `Step`'s random source is `Config.drawByte`. -/
inductive HostOp where
  /-- `LoadProgram(bytes)` (70_reset R283) -/
  | loadProgram (bytes : List Byte)
  /-- `TimerTick()` (45_timers_keys R237) -/
  | timerTick
  /-- `Step(keys, rnd)` (40_cycle R110) -/
  | step (keys : BitVec 16)
  deriving DecidableEq, Repr

/-- What the host is told about a `LoadProgram` (R283: "A refusal is reported to the host"). -/
inductive LoadReply where
  | accepted
  | refused
  deriving DecidableEq, Repr

/-- The state. The first eleven fields are the spec's record (R20); the rest is the host interface. -/
structure State where
  /-- `V[0..15]` (R21) -/
  v       : Vector Byte 16
  /-- `I`, 12 bits (R24; log 1) -/
  i       : Addr
  /-- `pc`, 12 bits (R25; log 1) -/
  pc      : Addr
  /-- the return stack (R26; log 1) -/
  stack   : Vector Addr Config.stackDepth
  /-- the number of stack entries in use (R26) -/
  sp      : Fin (Config.stackDepth + 1)
  /-- memory (R27) -/
  mem     : Memory
  /-- the display buffer (R28) -/
  disp    : Display
  /-- `DT` (R29) -/
  dt      : Byte
  /-- `ST` (R29) -/
  st      : Byte
  /-- the fault record, if a fault was taken (R30, R253) -/
  fault   : Option FaultRecord
  /-- at least one step has been attempted (R30) -/
  started : Bool
  /-- every display event emitted so far, oldest first (R262; log 10) -/
  events  : List DisplayEvent
  /-- the key sample of the current or last `Step` (R264; log 8) -/
  keys    : BitVec 16
  /-- the host operations to come, oldest first (R260, R287; log 9) -/
  pending : List HostOp
  /-- the answers to `LoadProgram` so far, oldest first (R283; log 12) -/
  loadReplies : List LoadReply
  /-- how many free values have been taken (R234, R265; log 6, log 7) -/
  draws   : Nat
  /-- the machine's choice of the open parameters (R8; log 4) -/
  params  : Config.Params
  deriving DecidableEq, Repr

/-- Why a step stops outside the machine. There is NO such reason: every fault of 60_exceptions R250 is taken inside the machine
(R251: `fault <- record`, `started <- true`), so a faulting step answers a next state, the halted one (log 2). Nothing raises a
value of this type, and the type has none: safe. -/
inductive Fault
  deriving DecidableEq, Repr

/-- Why an instruction has no meaning. -/
inductive Refusal where
  /-- Raised only by an arm of `exec` whose instruction has no meaning yet; there is none. Safe: the model stops. -/
  | notModelled (mnemonic : String)
  deriving DecidableEq, Repr

/-- Constructing a machine (70_reset R280, R281; 60_exceptions R260) with the given parameters: every register at the spec's value,
memory at its reset contents (nothing listed). The fields of the host interface: no event, no key, nothing pending (log 6 to
log 12). -/
def State.construct (params : Config.Params) : State where
  v       := Vector.replicate 16 0x00
  i       := 0x000
  pc      := 0x200
  stack   := Vector.replicate Config.stackDepth 0x000
  sp      := 0
  mem     := []
  disp    := Vector.replicate 64 (Vector.replicate 32 false)
  dt      := 0x00
  st      := 0x00
  fault   := none
  started := false
  events  := []
  keys    := 0x0000
  pending := []
  loadReplies := []
  draws   := 0
  params  := params

/-- The machine right after reset: constructed with the spec's defaults (R8, 10_state R31; log 4). -/
def State.reset : State := State.construct Config.defaults

end Sys2Proof.Machine
end

