-- ==== Sys2Proof/Machine/Memory.lean ====
section
/-! DEFINITION. The byte store under spec/20_memory.md: what an address reads as, storing one byte, and the canonical form.
Range and font checks are `memRead` and `memWrite` of Machine/Ops.lean. -/

namespace Sys2Proof.Machine

/-- What an address that is not listed reads as: the reset contents (70_reset R280): the machine's font at 0x000–0x04F (10_state
R31), zero elsewhere. -/
def Memory.initial (font : Config.Font) (a : Nat) : Byte := font.toList.getD a 0

/-- The byte at an address (R53 without its check). -/
def Memory.read (font : Config.Font) (m : Memory) (a : Nat) : Byte :=
  match m with
  | [] => Memory.initial font a
  | c :: rest => if c.1 = a then c.2 else Memory.read font rest a

/-- Forget what is listed for an address. -/
def Memory.erase (m : Memory) (a : Nat) : Memory := m.filter (fun c => c.1 != a)

/-- List a byte for an address, before the first higher address. -/
def Memory.insert (m : Memory) (a : Nat) (b : Byte) : Memory :=
  match m with
  | [] => [(a, b)]
  | c :: rest => if a < c.1 then (a, b) :: c :: rest else c :: Memory.insert rest a b

/-- Store a byte (R54 without its checks): the address is listed only when the byte differs from its reset content. -/
def Memory.write (font : Config.Font) (m : Memory) (a : Nat) (b : Byte) : Memory :=
  if b = Memory.initial font a then Memory.erase m a else Memory.insert (Memory.erase m a) a b

/-- Store bytes at consecutive addresses, lowest first. -/
def Memory.writeList (font : Config.Font) (m : Memory) (a : Nat) (bytes : List Byte) : Memory :=
  match bytes with
  | [] => m
  | b :: rest => Memory.writeList font (Memory.write font m a b) (a + 1) rest

/-- The canonical form: addresses strictly rising and inside 0x000–0xFFF, no entry equal to the address's reset content. -/
abbrev Memory.wf (font : Config.Font) (m : Memory) : Prop :=
  m.Pairwise (fun c d => c.1 < d.1) ∧ ∀ c ∈ m, c.1 < Config.memSize ∧ c.2 ≠ Memory.initial font c.1

end Sys2Proof.Machine
end

