-- ==== Sys2Proof/Machine/Operands.lean ====
section
/-! DEFINITION. Reading operands: registers, memory bytes, the key sample, data addresses, BCD digits, sprite cells. Results that leave a
byte's range are naturals here; the write that stores them masks (spec/00_scope.md R10). -/

namespace Sys2Proof.Machine

/-- `V[x]` (R10, R21). -/
def State.reg (s : State) (x : Nib) : Byte := s.v[x]

/-- The byte at an address (R10 without its check): what memory lists, or the machine's reset content. -/
def State.byteAt (s : State) (a : Nat) : Byte := s.mem.read s.params.font a

/-- Register 15, the flag register by convention (R22). -/
abbrev regVF : Nib := 15

/-- The difference `(a - b) & 0xFF`, "a negative difference is taken modulo 256" (42_alu R160). -/
def wrappedDifference (a b : Byte) : Nat := (((a.toNat : Int) - (b.toNat : Int)) % 256).toNat

/-- The data address `I + k`, a natural, not masked (43_index_memory R196). -/
def State.dataAddr (s : State) (k : Nat) : Nat := s.i.toNat + k

/-- The three decimal digits of a byte, hundreds first (R193). -/
def bcdDigits (v : Byte) : List Byte :=
  [BitVec.ofNat 8 (v.toNat / 100), BitVec.ofNat 8 (v.toNat / 10 % 10), BitVec.ofNat 8 (v.toNat % 10)]

/-- `V[0], …, V[x]` (R194). -/
def State.regsUpTo (s : State) (x : Nib) : List Byte := s.v.toList.take (x.val + 1)

/-- `keys[k]` of the step's sample (60_exceptions R264). -/
def keyPressed (keys : BitVec 16) (k : Nib) : Bool := keys.getLsbD k.val

/-- The pressed keys, the set `P` of 45_timers_keys R234, in rising order. -/
def pressedKeys (keys : BitVec 16) : List Nib := (List.finRange 16).filter (keyPressed keys)

/-- `choose(P)` (R234): the `c`-th key of the list, the last one when there are fewer; every key is some `c`'s choice. -/
def chooseKey (c : Nat) (first : Nib) (others : List Nib) : Nib :=
  match others with
  | [] => first
  | k :: rest => match c with
    | 0 => first
    | c' + 1 => chooseKey c' k rest
termination_by structural others

/-- The buffer cell of column `cx`, row `cy`, which wrap (44_display R210). -/
def wrapCell (cx cy : Nat) : Fin 64 × Fin 32 :=
  (⟨cx % 64, Nat.mod_lt _ (by decide)⟩, ⟨cy % 32, Nat.mod_lt _ (by decide)⟩)

/-- The cells of one sprite row's 1 bits, the most significant bit leftmost (R212). -/
def rowCells (ox cy : Nat) (row : Byte) : List (Fin 64 × Fin 32) :=
  ([0, 1, 2, 3, 4, 5, 6, 7].filter (fun b => row.getLsbD (7 - b))).map (fun b => wrapCell (ox + b) cy)

/-- The cells of a sprite's 1 bits, in the loop order of R212. -/
def spriteCells (ox oy : Nat) (rows : List Byte) : List (Fin 64 × Fin 32) :=
  match rows with
  | [] => []
  | row :: rest => rowCells ox oy row ++ spriteCells ox (oy + 1) rest

end Sys2Proof.Machine
end

