-- ==== Sys2Proof/Machine/Ops.lean ====
section
/-! DEFINITION. The named operations on the state that the meanings share (the primitives of spec/00_scope.md R10), the end of
a handler (40_cycle R115 to R117), and taking a fault (60_exceptions R251). There is no return from a fault: "There is no
return-from-trap instruction" (R252). -/

namespace Sys2Proof.Machine

/-! ## Registers -/

/-- `V[x] <- v`: stores `v & 0xFF` (R21). -/
def State.setV (s : State) (x : Nib) (val : Nat) : State := { s with v := s.v.set x (BitVec.ofNat 8 val) }

/-- The flag write: VF receives the flag (R23). -/
def State.setVF (s : State) (flag : Byte) : State := s.setV regVF flag.toNat

/-- `I <- v`: stores `v & 0xFFF` (R24). -/
def State.setI (s : State) (val : Nat) : State := { s with i := BitVec.ofNat 12 val }

/-- `pc <- target`: stores `target & 0xFFF` (R25). -/
def State.setPc (s : State) (target : Nat) : State := { s with pc := BitVec.ofNat 12 target }

/-- `DT <- v` (R29). -/
def State.setDt (s : State) (val : Byte) : State := { s with dt := val }

/-- `ST <- v` (R29). -/
def State.setSt (s : State) (val : Byte) : State := { s with st := val }

/-- The memory replaced. -/
def State.setMem (s : State) (m : Memory) : State := { s with mem := m }

/-- A byte stored at an address (20_memory R54 without its checks). -/
def State.storeByte (s : State) (a : Nat) (b : Byte) : State := s.setMem (s.mem.write s.params.font a b)

/-- Bytes stored at consecutive addresses, lowest first. -/
def State.storeBytes (s : State) (a : Nat) (bytes : List Byte) : State := s.setMem (s.mem.writeList s.params.font a bytes)

/-- The display buffer replaced. -/
def State.setDisp (s : State) (d : Display) : State := { s with disp := d }

/-- `V[a] <- b₀, V[a+1] <- b₁, …`, as far as registers go (R195). -/
def State.setRegsFrom (s : State) (a : Nat) (bytes : List Byte) : State :=
  match bytes with
  | [] => s
  | b :: rest => if h : a < 16 then (s.setV ⟨a, h⟩ b.toNat).setRegsFrom (a + 1) rest else s

/-- The source's register interface on any index (R21, R250 code 1): an index outside 0–15 raises `UnknownRegister`. No decoded
instruction can do so (R83); the meanings use `State.reg` and `State.setV`. -/
def State.readRegister (s : State) (n : Nat) : Except Raise Byte :=
  if h : n < 16 then .ok (s.reg ⟨n, h⟩) else .error ⟨.unknownRegister, some (.index n)⟩

/-- Writing through the register interface (R21, R250 code 1). -/
def State.writeRegister (s : State) (n : Nat) (val : Nat) : Except Raise State :=
  if h : n < 16 then .ok (s.setV ⟨n, h⟩ val) else .error ⟨.unknownRegister, some (.index n)⟩

/-! ## Memory -/

/-- `MemRead(addr, 1)` (20_memory R53). -/
def State.memRead (s : State) (a : Nat) : Except Raise Byte :=
  if a > 0xFFF then .error ⟨.addressOutOfRange, some (.addr a)⟩ else .ok (s.byteAt a)

/-- `MemWrite(addr, 1, v)` (R54): the range check, then the font check, then the store. -/
def State.memWrite (s : State) (a : Nat) (b : Byte) : Except Raise State :=
  if a > 0xFFF then .error ⟨.addressOutOfRange, some (.addr a)⟩
  else if a ≤ 0x04F ∧ s.params.fontWrite = .fault then .error ⟨.fontRegionWrite, some (.addr a)⟩
  else .ok (s.storeByte a b)

/-- Reads of consecutive addresses, lowest first; the first failing one is reported (R57, R196). -/
def State.readBytes (s : State) (a n : Nat) : Except Raise (List Byte) :=
  match n with
  | 0 => .ok []
  | n + 1 => match s.memRead a with
    | .error r => .error r
    | .ok b => match s.readBytes (a + 1) n with
      | .error r => .error r
      | .ok bs => .ok (b :: bs)

/-- Writes to consecutive addresses, lowest first; the first failing one is reported (R57, R196). -/
def State.writeBytes (s : State) (a : Nat) (bytes : List Byte) : Except Raise State :=
  match bytes with
  | [] => .ok s
  | b :: rest => match s.memWrite a b with
    | .error r => .error r
    | .ok t => t.writeBytes (a + 1) rest

/-- `readWord16(addr)` of the source's contract, big-endian; no instruction uses it (R58). -/
def State.readWord16 (s : State) (a : Nat) : Except Raise Word :=
  match s.memRead a with
  | .error r => .error r
  | .ok hi => match s.memRead (a + 1) with
    | .error r => .error r
    | .ok lo => .ok (hi ++ lo)

/-! ## Stack -/

/-- The two writes of CALL (41_control_flow R133): `stack[sp] <- v; sp <- sp + 1`; `none` when the stack is full. -/
def State.push (s : State) (val : Nat) : Option State :=
  if h : s.sp.val < Config.stackDepth then
    some { s with stack := s.stack.set s.sp.val (BitVec.ofNat 12 val), sp := ⟨s.sp.val + 1, Nat.succ_lt_succ h⟩ }
  else none

/-- The two steps of RET (R131): `sp <- sp - 1`, then `stack[sp]` is read; `none` when the stack is empty. The entry keeps its
value (R26). -/
def State.pop (s : State) : Option (Addr × State) :=
  match s.sp with
  | ⟨0, _⟩ => none
  | ⟨n + 1, h⟩ => some (s.stack[n]'(Nat.lt_of_succ_lt_succ h), { s with sp := ⟨n, Nat.lt_of_succ_lt h⟩ })

/-! ## Display and host side -/

/-- `disp[cx][cy]` (R28). -/
def Display.cell (d : Display) (c : Fin 64 × Fin 32) : Bool := (d[c.1])[c.2]

/-- `disp[cx][cy] <- b` (R10). -/
def Display.setCell (d : Display) (c : Fin 64 × Fin 32) (b : Bool) : Display := d.set c.1 ((d[c.1]).set c.2 b)

/-- The buffer with every cell off (44_display R211). -/
def Display.blank : Display := Vector.replicate 64 (Vector.replicate 32 false)

/-- `emit e` (R10): the events are appended to the output. -/
def State.emit (s : State) (es : List DisplayEvent) : State := { s with events := s.events ++ es }

/-- The n-th free value is used once: the counter moves on (log 6, log 7). -/
def State.countDraw (s : State) : State := { s with draws := s.draws + 1 }

/-- What the host is told about a `LoadProgram` (70_reset R283; log 12). -/
def State.reply (s : State) (r : LoadReply) : State := { s with loadReplies := s.loadReplies ++ [r] }

/-- `started <- true` (40_cycle R110, R112). -/
def State.markStarted (s : State) : State := { s with started := true }

/-! ## The end of a handler -/

/-- What a handler answers (40_cycle R115): the state with its writes and whether the step auto-advances, or what it raises. -/
inductive Handled where
  | advance (t : State)
  | noAdvance (t : State)
  | raised (r : Raise)
  deriving DecidableEq, Repr

/-- Auto-advance (R116): `pc <- pc + 2`. -/
def State.advance (s : State) : State := s.setPc (s.pc.toNat + 2)

/-- A taken skip (41_control_flow R139): `pc <- pc + 4`. -/
def State.skip (s : State) : State := s.setPc (s.pc.toNat + 4)

/-- The six skips (R134 to R137, R231, R232): taken or not. -/
def skipIf (taken : Bool) (s : State) : Handled := if taken then .noAdvance s.skip else .advance s

/-- TAKING A FAULT (60_exceptions R251, R253): the record is set with pc the faulting instruction's address, `started` is set,
and nothing else changes. There is no vector, no saved mode, nothing is pushed. -/
def State.takeFault (s : State) (r : Raise) (instr : Option Word) : State :=
  { s with fault := some { kind := r.kind, instr := instr, pc := s.pc, info := r.info }, started := true }

/-- The end of the handler of the instruction whose word is `w` (R115 to R117): auto-advance if asked for, and commit; or, if
it raised, the fault taken in the state before the handler, so that no write and no event of the step is left. -/
def complete (w : Word) (s : State) (h : Handled) : Host.Outcome State Fault Refusal :=
  match h with
  | .advance t => .next t.advance
  | .noAdvance t => .next t
  | .raised r => .next (s.takeFault r (some w))

/-- A handler whose accesses may raise (R57): advance if none did. -/
def advanceOr (e : Except Raise State) : Handled :=
  match e with
  | .ok t => .advance t
  | .error r => .raised r

/-- The codes of R250. -/
def FaultKind.code (k : FaultKind) : Nat :=
  match k with
  | .unknownRegister => 1
  | .unknownOpcode => 2
  | .stackOverflow => 3
  | .stackUnderflow => 4
  | .addressOutOfRange => 5
  | .fontRegionWrite => 6
  | .keyIndexOutOfRange => 7
  | .sysUnsupported => 8

/-- The `code` of a fault record (R253). -/
def FaultRecord.code (r : FaultRecord) : Nat := r.kind.code

/-- A halted machine (R111, R252): a fault record is set. -/
def State.halted (s : State) : Bool := s.fault.isSome

end Sys2Proof.Machine
end

