-- ==== Sys2Proof/Machine/Alu.lean ====
section
/-! DEFINITION. Register loads and arithmetic (spec/42_alu.md). Operands are read before any write, the result is written first
and the flag last (R160, D5). Every handler advances and none raises. -/

namespace Sys2Proof.Machine

/-- `LD Vx, kk` (R161). -/
def execLdImm (x : Nib) (kk : Byte) (s : State) : Host.Outcome State Fault Refusal :=
  complete (encode (.ldImm x kk)) s (.advance (s.setV x kk.toNat))

/-- `LD Vx, Vy` (R162). -/
def execLdReg (x y : Nib) (s : State) : Host.Outcome State Fault Refusal :=
  complete (encode (.ldReg x y)) s (.advance (s.setV x (s.reg y).toNat))

/-- `ADD Vx, kk` (R163): no flag. -/
def execAddImm (x : Nib) (kk : Byte) (s : State) : Host.Outcome State Fault Refusal :=
  complete (encode (.addImm x kk)) s (.advance (s.setV x ((s.reg x).toNat + kk.toNat)))

/-- `OR Vx, Vy` (R164): VF is not written. -/
def execOrReg (x y : Nib) (s : State) : Host.Outcome State Fault Refusal :=
  complete (encode (.orReg x y)) s (.advance (s.setV x (s.reg x ||| s.reg y).toNat))

/-- `AND Vx, Vy` (R165): VF is not written. -/
def execAndReg (x y : Nib) (s : State) : Host.Outcome State Fault Refusal :=
  complete (encode (.andReg x y)) s (.advance (s.setV x (s.reg x &&& s.reg y).toNat))

/-- `XOR Vx, Vy` (R166): VF is not written. -/
def execXorReg (x y : Nib) (s : State) : Host.Outcome State Fault Refusal :=
  complete (encode (.xorReg x y)) s (.advance (s.setV x (s.reg x ^^^ s.reg y).toNat))

/-- `ADD Vx, Vy` (R170): VF is the carry of the sum before the mask. -/
def execAddReg (x y : Nib) (s : State) : Host.Outcome State Fault Refusal :=
  complete (encode (.addReg x y)) s
    (.advance ((s.setV x ((s.reg x).toNat + (s.reg y).toNat)).setVF (carryFlag ((s.reg x).toNat + (s.reg y).toNat))))

/-- `SUB Vx, Vy` (R171): VF is 1 iff Vx > Vy, strictly. -/
def execSubReg (x y : Nib) (s : State) : Host.Outcome State Fault Refusal :=
  complete (encode (.subReg x y)) s
    (.advance ((s.setV x (wrappedDifference (s.reg x) (s.reg y))).setVF (greaterFlag (s.reg x) (s.reg y))))

/-- `SHR Vx` (R172): in place; VF is the old bit 0. -/
def execShr (x : Nib) (s : State) : Host.Outcome State Fault Refusal :=
  complete (encode (.shr x)) s (.advance ((s.setV x ((s.reg x).toNat >>> 1)).setVF (shiftedOutRight (s.reg x))))

/-- `SUBN Vx, Vy` (R173): VF is 1 iff Vy > Vx, strictly. -/
def execSubnReg (x y : Nib) (s : State) : Host.Outcome State Fault Refusal :=
  complete (encode (.subnReg x y)) s
    (.advance ((s.setV x (wrappedDifference (s.reg y) (s.reg x))).setVF (greaterFlag (s.reg y) (s.reg x))))

/-- `SHL Vx` (R174): in place; VF is the old bit 7. -/
def execShl (x : Nib) (s : State) : Host.Outcome State Fault Refusal :=
  complete (encode (.shl x)) s (.advance ((s.setV x ((s.reg x).toNat <<< 1)).setVF (shiftedOutLeft (s.reg x))))

/-- `RND Vx, kk` (R175): a fresh random byte, a free value (log 6), under the mask. -/
def execRnd (x : Nib) (kk : Byte) (s : State) : Host.Outcome State Fault Refusal :=
  complete (encode (.rnd x kk)) s (.advance (s.setV x (Config.drawByte s.draws &&& kk).toNat).countDraw)

end Sys2Proof.Machine
end

