-- ==== Sys2Proof/Machine/Control.lean ====
section
/-! DEFINITION. The control-flow instructions (spec/41_control_flow.md). While a handler runs, pc is the instruction's own
address (40_cycle R115). -/

namespace Sys2Proof.Machine

/-- `SYS nnn` (R130): no effect under `nop`, `SysUnsupported` under `fault`. -/
def execSys (nnn : Addr) (s : State) : Host.Outcome State Fault Refusal :=
  complete (encode (.sys nnn)) s (match s.params.sysPolicy with
    | .nop => .advance s
    | .fault => .raised ⟨.sysUnsupported, none⟩)

/-- `RET` (R131): pc is the popped entry, no auto-advance; `StackUnderflow` when the stack is empty. -/
def execRet (s : State) : Host.Outcome State Fault Refusal :=
  complete (encode .ret) s (match s.pop with
    | some (target, t) => .noAdvance (t.setPc target.toNat)
    | none => .raised ⟨.stackUnderflow, none⟩)

/-- `JP nnn` (R132). -/
def execJp (nnn : Addr) (s : State) : Host.Outcome State Fault Refusal :=
  complete (encode (.jp nnn)) s (.noAdvance (s.setPc nnn.toNat))

/-- `CALL nnn` (R133): pushes the address after the CALL (C1, D4); `StackOverflow` when the stack is full. -/
def execCall (nnn : Addr) (s : State) : Host.Outcome State Fault Refusal :=
  complete (encode (.call nnn)) s (match s.push (s.pc.toNat + 2) with
    | some t => .noAdvance (t.setPc nnn.toNat)
    | none => .raised ⟨.stackOverflow, none⟩)

/-- `SE Vx, kk` (R134). -/
def execSeImm (x : Nib) (kk : Byte) (s : State) : Host.Outcome State Fault Refusal :=
  complete (encode (.seImm x kk)) s (skipIf (s.reg x == kk) s)

/-- `SNE Vx, kk` (R135). -/
def execSneImm (x : Nib) (kk : Byte) (s : State) : Host.Outcome State Fault Refusal :=
  complete (encode (.sneImm x kk)) s (skipIf (s.reg x != kk) s)

/-- `SE Vx, Vy` (R136). -/
def execSeReg (x y : Nib) (s : State) : Host.Outcome State Fault Refusal :=
  complete (encode (.seReg x y)) s (skipIf (s.reg x == s.reg y) s)

/-- `SNE Vx, Vy` (R137). -/
def execSneReg (x y : Nib) (s : State) : Host.Outcome State Fault Refusal :=
  complete (encode (.sneReg x y)) s (skipIf (s.reg x != s.reg y) s)

/-- `JP V0, nnn` (R138): the register is always V0; the sum is masked to 12 bits. -/
def execJpV0 (nnn : Addr) (s : State) : Host.Outcome State Fault Refusal :=
  complete (encode (.jpV0 nnn)) s (.noAdvance (s.setPc (nnn.toNat + (s.reg 0).toNat)))

end Sys2Proof.Machine
end

