-- ==== Sys2Proof/Machine/Display.lean ====
section
/-! DEFINITION. The display instructions and the sprite compositor (spec/44_display.md). -/

namespace Sys2Proof.Machine

/-- What drawing has produced so far: the buffer, whether a set cell was erased, the events. -/
structure Drawing where
  disp     : Display
  collided : Bool
  events   : List DisplayEvent
  deriving DecidableEq, Repr

/-- One 1 bit of a sprite on its cell (R212): a set cell about to be erased is a collision, the cell is flipped, and its new
value is sent to the sink. -/
def flipCell (d : Drawing) (c : Fin 64 × Fin 32) : Drawing where
  disp     := d.disp.setCell c (!d.disp.cell c)
  collided := d.collided || d.disp.cell c
  events   := d.events ++ [.setCell c.1 c.2 (!d.disp.cell c)]

/-- Drawing a sprite's cells in order (R212). -/
def drawCells (disp : Display) (cells : List (Fin 64 × Fin 32)) : Drawing := cells.foldl flipCell ⟨disp, false, []⟩

/-- `CLS` (R211): every cell off; `ClearAll`, then `Flush`. -/
def execCls (s : State) : Host.Outcome State Fault Refusal :=
  complete (encode .cls) s (.advance ((s.setDisp Display.blank).emit [.clearAll, .flush]))

/-- The writes of a draw once the origin and the rows are read (R212): VF reset, the cells, VF the collision, `Flush`. -/
def State.drawSprite (s : State) (ox oy : Nat) (rows : List Byte) : State :=
  let d := drawCells s.disp (spriteCells ox oy rows)
  (((s.setVF 0).setDisp d.disp).setVF (flagByte d.collided)).emit (d.events ++ [DisplayEvent.flush])

/-- `DRW Vx, Vy, n` (R212): origin (Vx, Vy) read before VF is reset, rows `mem[I .. I+n-1]`. -/
def execDrw (x y n : Nib) (s : State) : Host.Outcome State Fault Refusal :=
  complete (encode (.drw x y n)) s (match s.readBytes (s.dataAddr 0) n.val with
    | .ok rows => .advance (s.drawSprite (s.reg x).toNat (s.reg y).toNat rows)
    | .error r => .raised r)

end Sys2Proof.Machine
end

