-- ==== Sys2Proof/Machine/Index.lean ====
section
/-! DEFINITION. The index register and memory transfers (spec/43_index_memory.md). `I` is never changed by an access (R196);
an access that faults leaves no trace of the step (40_cycle R117). -/

namespace Sys2Proof.Machine

/-- `LD I, nnn` (R190). -/
def execLdI (nnn : Addr) (s : State) : Host.Outcome State Fault Refusal :=
  complete (encode (.ldI nnn)) s (.advance (s.setI nnn.toNat))

/-- `ADD I, Vx` (R191): VF is written under either value of `P_ADDI_FLAG`. -/
def execAddI (x : Nib) (s : State) : Host.Outcome State Fault Refusal :=
  complete (encode (.addI x)) s
    (.advance ((s.setI (s.i.toNat + (s.reg x).toNat)).setVF (addIFlag s.params.addIFlag s.i (s.reg x))))

/-- `LD F, Vx` (R192): `I <- Vx * 5`, Vx not reduced. -/
def execLdF (x : Nib) (s : State) : Host.Outcome State Fault Refusal :=
  complete (encode (.ldF x)) s (.advance (s.setI ((s.reg x).toNat * Config.glyphBytes)))

/-- `LD B, Vx` (R193): hundreds, tens, ones at `I`, `I + 1`, `I + 2`. -/
def execLdB (x : Nib) (s : State) : Host.Outcome State Fault Refusal :=
  complete (encode (.ldB x)) s (advanceOr (s.writeBytes (s.dataAddr 0) (bcdDigits (s.reg x))))

/-- `LD [I], Vx` (R194): V0 to Vx from `I` on. -/
def execLdMemVx (x : Nib) (s : State) : Host.Outcome State Fault Refusal :=
  complete (encode (.ldMemVx x)) s (advanceOr (s.writeBytes (s.dataAddr 0) (s.regsUpTo x)))

/-- `LD Vx, [I]` (R195): every byte is read before a register is written. -/
def execLdVxMem (x : Nib) (s : State) : Host.Outcome State Fault Refusal :=
  complete (encode (.ldVxMem x)) s (match s.readBytes (s.dataAddr 0) (x.val + 1) with
    | .ok bytes => .advance (s.setRegsFrom 0 bytes)
    | .error r => .raised r)

end Sys2Proof.Machine
end

