-- ==== Sys2Proof/Machine/TimersKeys.lean ====
section
/-! DEFINITION. The timer and keypad instructions (spec/45_timers_keys.md), which the decoder gives only under
`P_TIMER_KEY_OPS = standard` (R230; log 15). -/

namespace Sys2Proof.Machine

/-- The key a register's value names (R231): a value above 15 raises `KeyIndexOutOfRange`. -/
def keyIndex (v : Byte) : Except Raise Nib :=
  if h : v.toNat < 16 then .ok ⟨v.toNat, h⟩ else .error ⟨.keyIndexOutOfRange, some (.value v)⟩

/-- `SKP Vx` (R231). -/
def execSkp (x : Nib) (s : State) : Host.Outcome State Fault Refusal :=
  complete (encode (.skp x)) s (match keyIndex (s.reg x) with
    | .ok k => skipIf (keyPressed s.keys k) s
    | .error r => .raised r)

/-- `SKNP Vx` (R232). -/
def execSknp (x : Nib) (s : State) : Host.Outcome State Fault Refusal :=
  complete (encode (.sknp x)) s (match keyIndex (s.reg x) with
    | .ok k => skipIf (!keyPressed s.keys k) s
    | .error r => .raised r)

/-- `LD Vx, DT` (R233). -/
def execLdVxDt (x : Nib) (s : State) : Host.Outcome State Fault Refusal :=
  complete (encode (.ldVxDt x)) s (.advance (s.setV x s.dt.toNat))

/-- `LD Vx, K` (R234): with no key pressed pc stays on the instruction; else Vx is one of the pressed keys, picked by a free
value (log 7). -/
def execLdVxK (x : Nib) (s : State) : Host.Outcome State Fault Refusal :=
  complete (encode (.ldVxK x)) s (match pressedKeys s.keys with
    | [] => .noAdvance s
    | k :: others => .advance (s.setV x (chooseKey (Config.keyChoice s.draws) k others).val).countDraw)

/-- `LD DT, Vx` (R235). -/
def execLdDtVx (x : Nib) (s : State) : Host.Outcome State Fault Refusal :=
  complete (encode (.ldDtVx x)) s (.advance (s.setDt (s.reg x)))

/-- `LD ST, Vx` (R236). -/
def execLdStVx (x : Nib) (s : State) : Host.Outcome State Fault Refusal :=
  complete (encode (.ldStVx x)) s (.advance (s.setSt (s.reg x)))

end Sys2Proof.Machine
end

