-- ==== Sys2Proof/Machine/Cycle.lean ====
section
/-! DEFINITION. The fetch-decode-execute step of spec/40_cycle.md and the host's operations of spec/60_exceptions.md R260, which
Machine/Step.lean calls. -/

namespace Sys2Proof.Machine

/-- Instruction fetch at pc (20_memory R55): two bytes, big-endian; `pc + 1` is not masked. -/
def State.fetch (s : State) : Except Raise Word := s.readWord16 s.pc.toNat

/-- Decode and execute the fetched word (R114, R115); a word that matches no entry is an unknown opcode (30_encoding R87). -/
def runWord (w : Word) (s : State) : Host.Outcome State Fault Refusal :=
  match decode s.params.timerKeyOps w with
  | .ok i => exec i s
  | .error _ => .next (s.takeFault ⟨.unknownOpcode, none⟩ (some w))

/-- `Step` with the key sample the state holds (R112): a halted machine changes nothing (R111); otherwise `started` is set and
the word at pc is fetched and run. A fault of the fetch has no word (60_exceptions R253). -/
def runStep (s : State) : Host.Outcome State Fault Refusal :=
  if s.halted then .next s
  else match s.markStarted.fetch with
    | .ok w => runWord w s.markStarted
    | .error r => .next (s.markStarted.takeFault r none)

/-- `TimerTick()` (45_timers_keys R237): each non-zero timer counts down; only under `standard`, and not when halted. -/
def State.timerTick (s : State) : State :=
  if s.halted then s
  else match s.params.timerKeyOps with
    | .absent => s
    | .standard => (s.setDt (BitVec.ofNat 8 (s.dt.toNat - 1))).setSt (BitVec.ofNat 8 (s.st.toNat - 1))

/-- `LoadProgram(bytes)` (70_reset R283): refused without effect after the first step or when too long; the host is told. -/
def State.loadProgram (s : State) (bytes : List Byte) : State :=
  if s.started ∨ bytes.length > Config.maxProgram then s.reply .refused
  else (s.storeBytes Config.loadAddr bytes).reply .accepted

/-- `Step(keys, rnd)` as the host calls it (R110): the sample is taken for the whole step (60_exceptions R264); a halted machine
changes nothing (R111). -/
def stepWithKeys (keys : BitVec 16) (s : State) : Host.Outcome State Fault Refusal :=
  if s.halted then .next s else runStep { s with keys := keys }

/-- One operation of the host (R260). -/
def performOp (op : HostOp) (s : State) : Host.Outcome State Fault Refusal :=
  match op with
  | .loadProgram bytes => .next (s.loadProgram bytes)
  | .timerTick => .next s.timerTick
  | .step keys => stepWithKeys keys s

/-- The host's next operation; with none pending, a `Step` with the key sample as it stands (log 8, log 9). -/
def performNext (s : State) : Host.Outcome State Fault Refusal :=
  match s.pending with
  | [] => runStep s
  | op :: rest => performOp op { s with pending := rest }

/-- A word placed where the next step fetches it, in a machine whose next operation is a `Step` that can run: not halted and
nothing pending (log 16). At pc = 0xFFF only the first byte has a place: no instruction can be fetched there (R55). -/
def State.placeWord (s : State) (w : Word) : State :=
  { s.storeBytes s.pc.toNat (if s.pc.toNat = 0xFFF then [highByte w] else [highByte w, lowByte w]) with
    pending := []
    fault := none }

end Sys2Proof.Machine
end

