-- ==== Sys2Proof/Safety.lean ====
section
/-! DEFINITION. What claims about runs are said in: the invariants of the machine, and the picture the raster sink shows. -/

namespace Sys2Proof.Safety
open Sys2Proof.Machine

/-- No fault was taken: the machine still steps (40_cycle R111). -/
abbrev Running (s : State) : Prop := s.fault = none

/-- Memory is in its canonical form. -/
abbrev MemoryCanonical (s : State) : Prop := s.mem.wf s.params.font

/-- The font region holds the machine's font: "populated once at construction and never mutated thereafter" (20_memory R51). -/
abbrev FontIntact (s : State) : Prop := ∀ a (h : a < Config.fontSize), s.byteAt a = s.params.font[a]

/-- The sink's duty for one event (60_exceptions R262, R263): set a cell, clear the surface, or present it. -/
def showEvent (d : Display) (e : DisplayEvent) : Display :=
  match e with
  | .setCell cx cy v => d.setCell (cx, cy) v
  | .clearAll => Display.blank
  | .flush => d

/-- The picture of a sink that applies the events in the order received (R263). -/
def showEvents (d : Display) (es : List DisplayEvent) : Display := es.foldl showEvent d

/-- A sink that started blank and received every event shows the display buffer. -/
abbrev SinkShowsBuffer (s : State) : Prop := showEvents Display.blank s.events = s.disp

/-- pc and every stack entry in use are even (20_memory R56: a property of programs whose targets are even). -/
abbrev PcAndReturnsEven (s : State) : Prop :=
  s.pc.toNat % 2 = 0 ∧ ∀ k : Fin Config.stackDepth, k.val < s.sp.val → (s.stack[k]).toNat % 2 = 0

/-- A fault record as 60_exceptions R250 and R253 allow it: which kinds carry which `info`, and that the word is absent only for
a fault of the fetch. -/
def RecordShape (r : FaultRecord) : Prop :=
  match r.kind with
  | .unknownRegister => False
  | .unknownOpcode => r.info = none ∧ r.instr.isSome
  | .stackOverflow => r.info = none ∧ r.instr.isSome
  | .stackUnderflow => r.info = none ∧ r.instr.isSome
  | .addressOutOfRange => r.info = some (.addr 0x1000)
  | .fontRegionWrite => (∃ a, a ≤ 0x04F ∧ r.info = some (.addr a)) ∧ r.instr.isSome
  | .keyIndexOutOfRange => (∃ v : Byte, 15 < v.toNat ∧ r.info = some (.value v)) ∧ r.instr.isSome
  | .sysUnsupported => r.info = none ∧ r.instr.isSome

/-- `mask` and `pattern` are the encoding of the instructions `make` builds of a word's fields: every word that matches decodes so
(30_encoding R84, R85), the whole table present. -/
def RowDecodes (mask pattern : Word) (make : Fields → Instr) : Prop :=
  ∀ w : Word, w &&& mask = pattern → decode .standard w = .ok (make (fieldsOf w))

/-- `exec` completes and auto-advances; the registers become what `f` says and nothing else but pc changes. -/
def CompletesWithRegisters (i : Instr) (s : State) (f : Nib → Byte) : Prop :=
  ∃ t, exec i s = .next t ∧ (∀ k, t.reg k = f k) ∧ t = { s with v := t.v, pc := s.pc + 2 }

/-- `exec` takes a fault: the record is set with the instruction's word and address, `started` is set, nothing else changes
(60_exceptions R251, R253). -/
def FaultsWith (i : Instr) (s : State) (kind : FaultKind) (info : Option FaultInfo) : Prop :=
  exec i s = .next { s with started := true, fault := some { kind := kind, instr := some (encode i), pc := s.pc, info := info } }

/-- The machine's next operation is a `Step`, and `u` is the state that `Step` begins in: nothing is pending and the key sample is
as it stands, or the host's `Step(keys)` is taken from the queue and its sample with it (40_cycle R110, 60_exceptions R264; the
queue is the model's, log 9). -/
def StepBegins (s u : State) : Prop :=
  (s.pending = [] ∧ u = s) ∨
  ∃ keys rest, s.pending = .step keys :: rest ∧ u = { s with keys := keys, pending := rest }

/-- A `Step` that begins in `s` can fetch, and the word at pc is `w`. -/
def FetchesWord (s : State) (w : Word) : Prop :=
  Running s ∧ s.pc.toNat < 0xFFF ∧ wordOfBytes (s.byteAt s.pc.toNat) (s.byteAt (s.pc.toNat + 1)) = w

/-- The machine is about to make a `Step` with nothing pending that can fetch, and the word at pc is `w`. -/
def AboutToRun (s : State) (w : Word) : Prop := s.pending = [] ∧ FetchesWord s w

/-- The sprite `DRW Vx, Vy, n` draws has a 1 bit on this cell: bit `7 - b` of row `r` on column `(Vx + b) mod 64`, row
`(Vy + r) mod 32` (44_display R212, R213 (c)). -/
def SpriteLights (s : State) (x y n : Nib) (c : Fin 64 × Fin 32) : Prop :=
  ∃ r b : Nat, r < n.val ∧ b < 8 ∧ (s.byteAt (s.i.toNat + r)).getLsbD (7 - b) = true ∧
    c.1.val = ((s.reg x).toNat + b) % 64 ∧ c.2.val = ((s.reg y).toNat + r) % 32

end Sys2Proof.Safety
end

