-- ==== Sys2Proof/Certificates/Slice0/Obligations.lean ====
section
/-! DEFINITION. The statements for the provers. Every per-instruction statement says that `exec` ANSWERS the next state the rule
gives, names everything that changes (the rest of the state is `s`'s), and says where the form takes a fault instead. -/

open Sys2Proof Sys2Proof.Machine Sys2Proof.Safety

/-! ## Encoding and decoding -/

/-- 30_encoding R82, R85: decoding an instruction's word, or its two bytes with more behind them, gives the instruction back;
under `absent` too, outside the timer and key group. -/
def Obligations.DecodeEncodeRoundTrip : Prop :=
  ∀ (i : Instr) (rest : List Byte), i.wellFormed = true →
    decode .standard (encode i) = .ok i ∧
    decodeBytes .standard (encodeBytes i ++ rest) = .ok (i, rest) ∧
    (i.inTimerKeyGroup = false → decode .absent (encode i) = .ok i)

/-- 30_encoding R82, R88: a word that decodes is the word of its instruction, but for the `y` nibble of SHR and SHL, which is
ignored. -/
def Obligations.DecodedWordIsTheEncodedWord : Prop :=
  ∀ (w : Word) (i : Instr), decode .standard w = .ok i →
    i.wellFormed = true ∧ (w = encode i ∨ ((∃ x, i = .shr x ∨ i = .shl x) ∧ w &&& 0xFF0F = encode i))

/-- 30_encoding R87: the unknown words are exactly the listed spaces, with the group present and without it. -/
def Obligations.UnknownWordsAreTheListedSpaces : Prop :=
  ∀ w : Word,
    let op := w.toNat / 4096
    let n := w.toNat % 16
    let kk := w.toNat % 256
    let unknown := (op = 5 ∧ n ≠ 0) ∨ (op = 8 ∧ n ∈ [0x8, 0x9, 0xA, 0xB, 0xC, 0xD, 0xF]) ∨ (op = 9 ∧ n ≠ 0) ∨
      (op = 0xE ∧ kk ∉ [0x9E, 0xA1]) ∨ (op = 0xF ∧ kk ∉ [0x07, 0x0A, 0x15, 0x18, 0x1E, 0x29, 0x33, 0x55, 0x65])
    (decode .standard w = .error (.unknownOpcode w) ↔ unknown) ∧
    (decode .absent w = .error (.unknownOpcode w) ↔
      unknown ∨ op = 0xE ∨ (op = 0xF ∧ kk ∈ [0x07, 0x0A, 0x15, 0x18]))

/-- 30_encoding R86: the first matching entry is used; only 0x00E0 and 0x00EE match two entries. -/
def Obligations.FirstMatchDecidesAndOnlyClsRetOverlap : Prop :=
  (∀ (p : Config.TimerKeyOps) (w : Word) (k : Nat) (r : Row), (dispatchTable p)[k]? = some r → r.accepts w = true →
    (∀ j r', j < k → (dispatchTable p)[j]? = some r' → r'.accepts w = false) →
    decode p w = .ok (r.make (fieldsOf w))) ∧
  (∀ (w : Word) (j k : Nat) (r r' : Row), (dispatchTable .standard)[j]? = some r → (dispatchTable .standard)[k]? = some r' →
    j < k → r.accepts w = true → r'.accepts w = true → (w = 0x00E0 ∧ j = 0 ∧ k = 2) ∨ (w = 0x00EE ∧ j = 1 ∧ k = 2)) ∧
  (∀ p, decode p 0x00E0 = .ok .cls ∧ decode p 0x00EE = .ok .ret)

/-- Words written out from the encodings of 30_encoding R85 decode to the instructions they stand for. -/
def Obligations.SampleWordsDecode : Prop :=
  decode .standard 0x0123 = .ok (.sys 0x123) ∧ decode .standard 0x2210 = .ok (.call 0x210) ∧
  decode .standard 0x3310 = .ok (.seImm 3 0x10) ∧ decode .standard 0x6A7B = .ok (.ldImm 0xA 0x7B) ∧
  decode .standard 0x8127 = .ok (.subnReg 1 2) ∧ decode .standard 0x849E = .ok (.shl 4) ∧
  decode .standard 0xD125 = .ok (.drw 1 2 5) ∧ decode .standard 0xE59E = .ok (.skp 5) ∧
  decode .standard 0xF30A = .ok (.ldVxK 3) ∧ decode .standard 0xF533 = .ok (.ldB 5)

/-! ## The step -/

/-- 40_cycle R112: a step whose word decodes to `i` is `exec i` with `started` set; under `Step(keys)` the sample is taken
first. -/
def Obligations.StepRunsTheDecodedInstruction : Prop :=
  ∀ (s : State) (w : Word) (i : Instr), AboutToRun s w → decode s.params.timerKeyOps w = .ok i →
    step s = exec i { s with started := true } ∧
    ∀ (keys : BitVec 16) (rest : List HostOp),
      step { s with pending := .step keys :: rest } = exec i { s with started := true, keys := keys, pending := rest }

/-- 40_cycle R113 and 20_memory R55: fetch is big-endian at any pc, even or odd; at pc = 0xFFF it raises
AddressOutOfRange(0x1000), a fault without a word, in a `Step` of either form. -/
def Obligations.FetchIsBigEndianAndFaultsAtTheEnd : Prop :=
  (∀ s : State, s.pc.toNat < 0xFFF → ∃ w : Word, s.fetch = .ok w ∧
    w.toNat = 256 * (s.byteAt s.pc.toNat).toNat + (s.byteAt (s.pc.toNat + 1)).toNat) ∧
  (∀ s : State, s.pc = 0xFFF → s.fetch = .error ⟨.addressOutOfRange, some (.addr 0x1000)⟩) ∧
  (∀ s u : State, StepBegins s u → Running s → s.pc = 0xFFF →
    step s = .next { u with started := true, fault := some ⟨.addressOutOfRange, none, 0xFFF, some (.addr 0x1000)⟩ })

/-- 40_cycle R114, 30_encoding R87: a word that matches no entry halts the machine and is reported with its address, in a
`Step` of either form. -/
def Obligations.UnknownOpcodeIsReported : Prop :=
  ∀ (s u : State) (w : Word), StepBegins s u → FetchesWord s w → decode s.params.timerKeyOps w = .error (.unknownOpcode w) →
    step s = .next { u with started := true, fault := some ⟨.unknownOpcode, some w, s.pc, none⟩ }

/-- 40_cycle R111: a halted machine does not step, however often it is called, and whatever the host does. -/
def Obligations.HaltedMachineNeverChanges : Prop :=
  (∀ s : State, s.fault ≠ none → s.pending = [] → step s = .next s) ∧
  (∀ (s t : State) (k : Nat), s.fault ≠ none → s.started = true → Host.Core.run core k s = .next t →
    t = { s with pending := s.pending.drop k, loadReplies := t.loadReplies })

/-- A machine step always answers a next state: faults are taken inside the machine (60_exceptions R251), and there is no halt
instruction (40_cycle R119). -/
def Obligations.EveryStepAnswersNext : Prop := ∀ s : State, ∃ t, step s = .next t

/-- 40_cycle R110: `Step` sets `started` whether it commits or faults; and from then on it stays set. -/
def Obligations.StepSetsStarted : Prop :=
  (∀ s u t : State, StepBegins s u → Running s → step s = .next t → t.started = true) ∧
  (∀ s t : State, step s = .next t → s.started = true → t.started = true)

/-- 60_exceptions R251: a faulting step writes the fault record and `started` in the state the `Step` begins in, of either form, and
nothing else; the record names the instruction's own address and its raw word (none when the fetch faults), and has the shape R250 gives its kind. -/
def Obligations.FaultingStepWritesOnlyTheRecord : Prop :=
  ∀ s u t : State, StepBegins s u → Running s → step s = .next t → t.fault ≠ none →
    ∃ r, t = { u with fault := some r, started := true } ∧ r.pc = s.pc ∧ RecordShape r ∧
      r.instr = if s.pc = 0xFFF then none else some (wordOfBytes (s.byteAt s.pc.toNat) (s.byteAt (s.pc.toNat + 1)))

/-- 60_exceptions R250, the column "raised by": which instruction can raise which fault. -/
def Obligations.OnlyTheNamedInstructionsFault : Prop :=
  ∀ (i : Instr) (s t : State) (r : FaultRecord), exec i s = .next t → Running s → t.fault = some r →
    (r.kind = .stackOverflow ∧ ∃ nnn, i = .call nnn) ∨
    (r.kind = .stackUnderflow ∧ i = .ret) ∨
    (r.kind = .addressOutOfRange ∧ ((∃ x y n, i = .drw x y n) ∨ (∃ x, i = .ldB x ∨ i = .ldMemVx x ∨ i = .ldVxMem x))) ∨
    (r.kind = .fontRegionWrite ∧ s.params.fontWrite = .fault ∧ ∃ x, i = .ldB x ∨ i = .ldMemVx x) ∨
    (r.kind = .keyIndexOutOfRange ∧ ∃ x, i = .skp x ∨ i = .sknp x) ∨
    (r.kind = .sysUnsupported ∧ s.params.sysPolicy = .fault ∧ ∃ nnn, i = .sys nnn)

/-- 40_cycle R118: where pc is after a committed step. -/
def Obligations.PcAfterACommittedStep : Prop :=
  ∀ (i : Instr) (s t : State), exec i s = .next t → t.fault = none →
    t.pc = s.pc + 2 ∨
    (t.pc = s.pc + 4 ∧ ((∃ x kk, i = .seImm x kk ∨ i = .sneImm x kk) ∨ (∃ x y, i = .seReg x y ∨ i = .sneReg x y) ∨
      (∃ x, i = .skp x ∨ i = .sknp x))) ∨
    (t.pc = s.pc ∧ ∃ x, i = .ldVxK x) ∨
    (∃ nnn, t.pc = nnn ∧ (i = .jp nnn ∨ i = .call nnn)) ∨
    (∃ nnn, t.pc.toNat = (nnn.toNat + (s.reg 0).toNat) % 4096 ∧ i = .jpV0 nnn) ∨
    (i = .ret ∧ ∃ k : Fin Config.stackDepth, s.sp.val = k.val + 1 ∧ t.pc = s.stack[k])

/-! ## Invariants -/

/-- Memory keeps its canonical form, whatever step is made (the form is the model's, log 17). -/
def Obligations.MemoryStaysCanonical : Prop :=
  ∀ s t : State, MemoryCanonical s → step s = .next t → MemoryCanonical t

/-- 20_memory R51, R54: under `P_FONT_WRITE = fault` the font is never mutated, by any instruction, load or tick. -/
def Obligations.FontIsNeverMutated : Prop :=
  ∀ s t : State, s.params.fontWrite = .fault → FontIntact s → step s = .next t → FontIntact t ∧ t.params = s.params

/-- 60_exceptions R262, R263: a sink that applies the events in the order received shows the display buffer. -/
def Obligations.SinkAlwaysShowsTheBuffer : Prop :=
  ∀ s t : State, SinkShowsBuffer s → step s = .next t → SinkShowsBuffer t

/-- A fault record is only there in a machine that has started (60_exceptions R251 writes both). -/
def Obligations.FaultedMachineHasStarted : Prop :=
  ∀ s t : State, (s.fault ≠ none → s.started = true) → step s = .next t → (t.fault ≠ none → t.started = true)

/-- The state after construction meets the invariants above, whatever the parameters and the font; so the reset state does. -/
def Obligations.ResetMeetsTheInvariants : Prop :=
  (∀ p : Config.Params, MemoryCanonical (State.construct p) ∧ FontIntact (State.construct p) ∧
    SinkShowsBuffer (State.construct p) ∧ ((State.construct p).fault ≠ none → (State.construct p).started = true) ∧
    PcAndReturnsEven (State.construct p)) ∧
  MemoryCanonical State.reset ∧ FontIntact State.reset ∧ SinkShowsBuffer State.reset ∧
  (State.reset.fault ≠ none → State.reset.started = true) ∧ PcAndReturnsEven State.reset

/-- 20_memory R56: the even-pc property of programs whose jump and call targets are even. -/
def Obligations.EvenTargetsKeepPcEven : Prop :=
  ∀ (i : Instr) (s t : State), PcAndReturnsEven s →
    (∀ nnn, i = .jp nnn ∨ i = .call nnn → nnn.toNat % 2 = 0) →
    (∀ nnn, i = .jpV0 nnn → (nnn.toNat + (s.reg 0).toNat) % 2 = 0) →
    exec i s = .next t → PcAndReturnsEven t

/-- 70_reset R280: the state after construction, for every choice of the parameters (00_scope R8) and of the font (10_state R31);
the reset state is the construction with the spec's defaults. That the parameters are a field of the state is the model's choice
(log 4); the bytes of the default font are presumed by the spec (log 5). -/
def Obligations.ResetStateIsAsStated : Prop :=
  (∀ (p : Config.Params) (s : State), s = State.construct p →
    (∀ x, s.reg x = 0x00) ∧ s.i = 0x000 ∧ s.pc = 0x200 ∧ (∀ k : Fin Config.stackDepth, s.stack[k] = 0x000) ∧ s.sp = 0 ∧
    (∀ a (h : a < 80), s.byteAt a = p.font[a]) ∧ (∀ a, 0x50 ≤ a → a ≤ 0xFFF → s.byteAt a = 0x00) ∧
    (∀ c, s.disp.cell c = false) ∧ s.dt = 0x00 ∧ s.st = 0x00 ∧ s.fault = none ∧ s.started = false ∧ s.params = p) ∧
  State.reset = State.construct Config.defaults ∧
  Config.defaults = ⟨.standard, .nop, .preAdd, .fault, Config.font⟩

/-! ## What each kind of state is written by -/

/-- 10_state R23: VF changes only by an instruction of the flag table or one whose destination is VF. -/
def Obligations.FlagHasOnlyItsWriters : Prop :=
  ∀ (i : Instr) (s t : State), exec i s = .next t → t.reg 15 ≠ s.reg 15 →
    (∃ x y, i = .addReg x y ∨ i = .subReg x y ∨ i = .subnReg x y) ∨ (∃ x, i = .shr x ∨ i = .shl x ∨ i = .addI x) ∨
    (∃ x y n, i = .drw x y n) ∨
    (∃ kk, i = .ldImm 15 kk ∨ i = .addImm 15 kk ∨ i = .rnd 15 kk) ∨
    (∃ y, i = .ldReg 15 y ∨ i = .orReg 15 y ∨ i = .andReg 15 y ∨ i = .xorReg 15 y) ∨
    i = .ldVxDt 15 ∨ i = .ldVxK 15 ∨ i = .ldVxMem 15

/-- 10_state R24, R26, R28, R29, 20_memory R50, 60_exceptions R262: which instructions can change I, the stack, memory, the
display and its events, and the timers; and no instruction changes an input or a parameter. -/
def Obligations.StateHasOnlyItsWriters : Prop :=
  ∀ (i : Instr) (s t : State), exec i s = .next t →
    (t.i ≠ s.i → (∃ nnn, i = .ldI nnn) ∨ (∃ x, i = .addI x ∨ i = .ldF x)) ∧
    (t.stack ≠ s.stack → ∃ nnn, i = .call nnn) ∧
    (t.sp ≠ s.sp → i = .ret ∨ ∃ nnn, i = .call nnn) ∧
    (t.mem ≠ s.mem → ∃ x, i = .ldB x ∨ i = .ldMemVx x) ∧
    (t.disp ≠ s.disp → i = .cls ∨ ∃ x y n, i = .drw x y n) ∧
    (t.events ≠ s.events → i = .cls ∨ ∃ x y n, i = .drw x y n) ∧
    (t.dt ≠ s.dt → ∃ x, i = .ldDtVx x) ∧
    (t.st ≠ s.st → ∃ x, i = .ldStVx x) ∧
    (t.draws ≠ s.draws → (∃ x kk, i = .rnd x kk) ∨ ∃ x, i = .ldVxK x) ∧
    t.keys = s.keys ∧ t.pending = s.pending ∧ t.loadReplies = s.loadReplies ∧ t.params = s.params

/-- 60_exceptions R264: only SKP, SKNP and LD Vx, K read the key sample: every other instruction does the same under any. -/
def Obligations.OnlyKeyInstructionsReadTheKeys : Prop :=
  ∀ (i : Instr) (s t : State) (keys : BitVec 16), (∀ x, i ≠ .skp x ∧ i ≠ .sknp x ∧ i ≠ .ldVxK x) →
    exec i s = .next t → exec i { s with keys := keys } = .next { t with keys := keys }

/-- 10_state R21 and its place in 60_exceptions R250 (code 1): the register interface stores a value modulo 256 and reads it back,
touches no other register, and raises UnknownRegister for an index outside 0 to 15. -/
def Obligations.RegisterInterfaceMasksAndChecks : Prop :=
  ∀ (s : State) (n val : Nat),
    (n < 16 → ∃ t b, s.writeRegister n val = .ok t ∧ t.readRegister n = .ok b ∧ b.toNat = val % 256 ∧
      (∀ m, m ≠ n → t.readRegister m = s.readRegister m) ∧ t = { s with v := t.v }) ∧
    (15 < n → s.readRegister n = .error ⟨.unknownRegister, some (.index n)⟩ ∧
      s.writeRegister n val = .error ⟨.unknownRegister, some (.index n)⟩)

/-- 20_memory R53, R54: MemRead and MemWrite of one byte, with their checks in order. -/
def Obligations.MemoryPrimitivesCheckRangeThenFont : Prop :=
  ∀ (s : State) (a : Nat) (b : Byte),
    (0xFFF < a → s.memRead a = .error ⟨.addressOutOfRange, some (.addr a)⟩ ∧
      s.memWrite a b = .error ⟨.addressOutOfRange, some (.addr a)⟩) ∧
    (a ≤ 0xFFF → s.memRead a = .ok (s.byteAt a)) ∧
    (a ≤ 0x04F → s.params.fontWrite = .fault → s.memWrite a b = .error ⟨.fontRegionWrite, some (.addr a)⟩) ∧
    (a ≤ 0xFFF → (s.params.fontWrite = .write ∨ 0x04F < a) → ∃ t, s.memWrite a b = .ok t ∧ t.byteAt a = b ∧
      (∀ c, c ≠ a → t.byteAt c = s.byteAt c) ∧ t = { s with mem := t.mem })

/-! ## Control flow -/

/-- 41_control_flow R130. -/
def Obligations.SysFollowsItsPolicy : Prop :=
  (∀ w : Word, w &&& 0xF000 = 0x0000 → w ≠ 0x00E0 → w ≠ 0x00EE → decode .standard w = .ok (.sys (fieldsOf w).nnn)) ∧
  ∀ (s : State) (nnn : Addr),
    (s.params.sysPolicy = .nop → exec (.sys nnn) s = .next { s with pc := s.pc + 2 }) ∧
    (s.params.sysPolicy = .fault → FaultsWith (.sys nnn) s .sysUnsupported none)

/-- 41_control_flow R132, R138: JP and JP V0 set pc to their target, masked to 12 bits, without auto-advance. -/
def Obligations.JumpsSetPc : Prop :=
  RowDecodes 0xF000 0x1000 (fun f => .jp f.nnn) ∧ RowDecodes 0xF000 0xB000 (fun f => .jpV0 f.nnn) ∧
  ∀ (s : State) (nnn : Addr),
    exec (.jp nnn) s = .next { s with pc := nnn } ∧
    ∃ t, exec (.jpV0 nnn) s = .next t ∧ t = { s with pc := t.pc } ∧ t.pc.toNat = (nnn.toNat + (s.reg 0).toNat) % 4096

/-- 41_control_flow R133: CALL pushes the address after itself, or faults when the stack is full. -/
def Obligations.CallPushesTheReturnAddress : Prop :=
  RowDecodes 0xF000 0x2000 (fun f => .call f.nnn) ∧
  ∀ (s : State) (nnn : Addr),
    (s.sp.val < 16 → ∃ t, exec (.call nnn) s = .next t ∧ t.pc = nnn ∧ t.sp.val = s.sp.val + 1 ∧
      (∀ k : Fin Config.stackDepth, t.stack[k] = if k.val = s.sp.val then s.pc + 2 else s.stack[k]) ∧
      t = { s with pc := t.pc, sp := t.sp, stack := t.stack }) ∧
    (s.sp.val = 16 → FaultsWith (.call nnn) s .stackOverflow none)

/-- 41_control_flow R131: RET resumes at the popped address, or faults when the stack is empty. -/
def Obligations.ReturnPopsTheTop : Prop :=
  RowDecodes 0xFFFF 0x00EE (fun _ => .ret) ∧
  (∀ (s : State) (k : Fin Config.stackDepth), s.sp.val = k.val + 1 →
    ∃ t, exec .ret s = .next t ∧ t.pc = s.stack[k] ∧ t.sp.val = k.val ∧ t = { s with pc := t.pc, sp := t.sp }) ∧
  (∀ s : State, s.sp.val = 0 → FaultsWith .ret s .stackUnderflow none)

/-- 41_control_flow R133 (its corner cases, 90_conflicts C1): a RET after a CALL resumes after the CALL, with the stack as deep
as before. -/
def Obligations.ReturnAfterCallResumesAfterIt : Prop :=
  ∀ (s : State) (nnn : Addr), s.sp.val < 16 →
    ∃ t u, exec (.call nnn) s = .next t ∧ exec .ret t = .next u ∧ u = { s with pc := s.pc + 2, stack := u.stack } ∧
      ∀ k : Fin Config.stackDepth, k.val < s.sp.val → u.stack[k] = s.stack[k]

/-- 41_control_flow R133: `CALL a` at address `a` recurses until StackOverflow on its 17th execution. -/
def Obligations.CallToItselfOverflowsOnThe17th : Prop :=
  ∀ s : State, AboutToRun s (encode (.call s.pc)) → s.sp.val = 0 →
    ∃ t u, Host.Core.run core 16 s = .next t ∧ t.fault = none ∧ t.pc = s.pc ∧ t.sp.val = 16 ∧
      (∀ k : Fin Config.stackDepth, t.stack[k] = s.pc + 2) ∧
      step t = .next u ∧ u = { t with fault := some ⟨.stackOverflow, some (encode (.call s.pc)), s.pc, none⟩ }

/-- 41_control_flow R134 to R137: the four compare-and-skip instructions add 4 to pc when their condition holds, 2 otherwise,
and change nothing else. -/
def Obligations.CompareSkipsAdvanceByFourOrTwo : Prop :=
  RowDecodes 0xF000 0x3000 (fun f => .seImm f.x f.kk) ∧ RowDecodes 0xF000 0x4000 (fun f => .sneImm f.x f.kk) ∧
  RowDecodes 0xF00F 0x5000 (fun f => .seReg f.x f.y) ∧ RowDecodes 0xF00F 0x9000 (fun f => .sneReg f.x f.y) ∧
  ∀ (s : State) (x y : Nib) (kk : Byte),
    exec (.seImm x kk) s = .next { s with pc := if s.reg x = kk then s.pc + 4 else s.pc + 2 } ∧
    exec (.sneImm x kk) s = .next { s with pc := if s.reg x = kk then s.pc + 2 else s.pc + 4 } ∧
    exec (.seReg x y) s = .next { s with pc := if s.reg x = s.reg y then s.pc + 4 else s.pc + 2 } ∧
    exec (.sneReg x y) s = .next { s with pc := if s.reg x = s.reg y then s.pc + 2 else s.pc + 4 }

/-- 40_cycle R119: a jump to itself leaves the state unchanged except `started`. -/
def Obligations.JumpToItselfIdles : Prop :=
  ∀ s : State, AboutToRun s (encode (.jp s.pc)) → step s = .next { s with started := true }

/-! ## Loads and arithmetic -/

/-- 42_alu R161, R162, R163: the loads and ADD immediate write Vx and no flag. -/
def Obligations.LoadsAndAddImmediateWriteVx : Prop :=
  RowDecodes 0xF000 0x6000 (fun f => .ldImm f.x f.kk) ∧ RowDecodes 0xF00F 0x8000 (fun f => .ldReg f.x f.y) ∧
  RowDecodes 0xF000 0x7000 (fun f => .addImm f.x f.kk) ∧
  ∀ (s : State) (x y : Nib) (kk : Byte),
    CompletesWithRegisters (.ldImm x kk) s (fun k => if k = x then kk else s.reg k) ∧
    CompletesWithRegisters (.ldReg x y) s (fun k => if k = x then s.reg y else s.reg k) ∧
    CompletesWithRegisters (.addImm x kk) s (fun k => if k = x then s.reg x + kk else s.reg k)

/-- 42_alu R164, R165, R166: the logic instructions write Vx and leave VF alone. -/
def Obligations.LogicWritesVxAndNoFlag : Prop :=
  RowDecodes 0xF00F 0x8001 (fun f => .orReg f.x f.y) ∧ RowDecodes 0xF00F 0x8002 (fun f => .andReg f.x f.y) ∧
  RowDecodes 0xF00F 0x8003 (fun f => .xorReg f.x f.y) ∧
  ∀ (s : State) (x y : Nib),
    CompletesWithRegisters (.orReg x y) s (fun k => if k = x then s.reg x ||| s.reg y else s.reg k) ∧
    CompletesWithRegisters (.andReg x y) s (fun k => if k = x then s.reg x &&& s.reg y else s.reg k) ∧
    CompletesWithRegisters (.xorReg x y) s (fun k => if k = x then s.reg x ^^^ s.reg y else s.reg k)

/-- 42_alu R170: the sum modulo 256 and its carry; VF ends holding the flag, whatever x. -/
def Obligations.AddWritesSumThenCarry : Prop :=
  RowDecodes 0xF00F 0x8004 (fun f => .addReg f.x f.y) ∧
  ∀ (s : State) (x y : Nib), CompletesWithRegisters (.addReg x y) s (fun k =>
    if k = 15 then (if (s.reg x).toNat + (s.reg y).toNat > 255 then 1 else 0)
    else if k = x then s.reg x + s.reg y else s.reg k)

/-- 42_alu R171, R173: the difference modulo 256 and the STRICT comparison of the operands; VF ends holding the flag. -/
def Obligations.SubtractsWriteDifferenceThenStrictFlag : Prop :=
  RowDecodes 0xF00F 0x8005 (fun f => .subReg f.x f.y) ∧ RowDecodes 0xF00F 0x8007 (fun f => .subnReg f.x f.y) ∧
  ∀ (s : State) (x y : Nib),
    CompletesWithRegisters (.subReg x y) s (fun k =>
      if k = 15 then (if s.reg y < s.reg x then 1 else 0) else if k = x then s.reg x - s.reg y else s.reg k) ∧
    CompletesWithRegisters (.subnReg x y) s (fun k =>
      if k = 15 then (if s.reg x < s.reg y then 1 else 0) else if k = x then s.reg y - s.reg x else s.reg k)

/-- 42_alu R172, R174: the shifts are in place by one bit, the `y` field is ignored, VF is the bit shifted out. -/
def Obligations.ShiftsWriteVxThenTheBitShiftedOut : Prop :=
  RowDecodes 0xF00F 0x8006 (fun f => .shr f.x) ∧ RowDecodes 0xF00F 0x800E (fun f => .shl f.x) ∧
  ∀ (s : State) (x : Nib),
    CompletesWithRegisters (.shr x) s (fun k =>
      if k = 15 then s.reg x &&& 1 else if k = x then s.reg x >>> 1 else s.reg k) ∧
    CompletesWithRegisters (.shl x) s (fun k =>
      if k = 15 then s.reg x >>> 7 else if k = x then s.reg x <<< 1 else s.reg k)

/-- 42_alu R175: RND writes the drawn byte under the mask, so no bit outside the mask, and the next draw is another one. The
drawn byte is a free value: this holds whatever it is. -/
def Obligations.RandomByteIsMasked : Prop :=
  RowDecodes 0xF000 0xC000 (fun f => .rnd f.x f.kk) ∧
  ∀ (s : State) (x : Nib) (kk : Byte), ∃ t, exec (.rnd x kk) s = .next t ∧
    t.reg x = Config.drawByte s.draws &&& kk ∧ t.reg x &&& ~~~kk = 0 ∧ (∀ k, k ≠ x → t.reg k = s.reg k) ∧
    t = { s with v := t.v, pc := s.pc + 2, draws := s.draws + 1 }

/-! ## Index and memory -/

/-- 43_index_memory R190, R192: LD I and LD F write I and nothing else; Vx is not reduced. -/
def Obligations.LoadIndexAndFontAddress : Prop :=
  RowDecodes 0xF000 0xA000 (fun f => .ldI f.nnn) ∧ RowDecodes 0xF0FF 0xF029 (fun f => .ldF f.x) ∧
  ∀ (s : State) (nnn : Addr) (x : Nib),
    exec (.ldI nnn) s = .next { s with i := nnn, pc := s.pc + 2 } ∧
    ∃ t, exec (.ldF x) s = .next t ∧ t.i.toNat = (s.reg x).toNat * 5 ∧ t = { s with i := t.i, pc := s.pc + 2 }

/-- 10_state R31, 43_index_memory R192: with the font in place, LD F, Vx points I at glyph Vx, whose five bytes are read at I on. -/
def Obligations.FontAddressReadsTheGlyph : Prop :=
  ∀ (s : State) (x : Nib), FontIntact s → (s.reg x).toNat ≤ 15 → ∃ t, exec (.ldF x) s = .next t ∧
    ∀ r (h : (s.reg x).toNat * 5 + r < 80), r < 5 → t.byteAt (t.i.toNat + r) = s.params.font[(s.reg x).toNat * 5 + r]

/-- 43_index_memory R191: I plus Vx modulo 4096; VF is always 0 under `pre_add`, the carry past 0xFFF under `sum_overflow`. -/
def Obligations.AddToIndexWritesFlagByParameter : Prop :=
  RowDecodes 0xF0FF 0xF01E (fun f => .addI f.x) ∧
  ∀ (s : State) (x : Nib), ∃ t, exec (.addI x) s = .next t ∧
    t.i.toNat = (s.i.toNat + (s.reg x).toNat) % 4096 ∧
    (s.params.addIFlag = .preAdd → t.reg 15 = 0) ∧
    (s.params.addIFlag = .sumOverflow → t.reg 15 = if s.i.toNat + (s.reg x).toNat > 0xFFF then 1 else 0) ∧
    (∀ k, k ≠ 15 → t.reg k = s.reg k) ∧ t = { s with i := t.i, v := t.v, pc := s.pc + 2 }

/-- 43_index_memory R193: the three decimal digits at I, I+1, I+2 and no other byte; or the fault of the first failing byte,
with none written. -/
def Obligations.BcdStoresThreeDigitsOrFaults : Prop :=
  RowDecodes 0xF0FF 0xF033 (fun f => .ldB f.x) ∧
  ∀ (s : State) (x : Nib),
    (s.params.fontWrite = .fault → s.i.toNat ≤ 0x4F → FaultsWith (.ldB x) s .fontRegionWrite (some (.addr s.i.toNat))) ∧
    (0xFFE ≤ s.i.toNat → FaultsWith (.ldB x) s .addressOutOfRange (some (.addr 0x1000))) ∧
    (s.i.toNat < 0xFFE → (s.params.fontWrite = .write ∨ 0x4F < s.i.toNat) → ∃ t, exec (.ldB x) s = .next t ∧
      (t.byteAt s.i.toNat).toNat = (s.reg x).toNat / 100 ∧
      (t.byteAt (s.i.toNat + 1)).toNat = (s.reg x).toNat / 10 % 10 ∧
      (t.byteAt (s.i.toNat + 2)).toNat = (s.reg x).toNat % 10 ∧
      (∀ a, a < s.i.toNat ∨ s.i.toNat + 2 < a → t.byteAt a = s.byteAt a) ∧
      t = { s with mem := t.mem, pc := s.pc + 2 })

/-- 43_index_memory R194: V0 to Vx at I on and no other byte, I unchanged; or the fault of the first failing byte, with none
written. -/
def Obligations.StoreRegistersOrFaults : Prop :=
  RowDecodes 0xF0FF 0xF055 (fun f => .ldMemVx f.x) ∧
  ∀ (s : State) (x : Nib),
    (s.params.fontWrite = .fault → s.i.toNat ≤ 0x4F → FaultsWith (.ldMemVx x) s .fontRegionWrite (some (.addr s.i.toNat))) ∧
    (0xFFF < s.i.toNat + x.val → FaultsWith (.ldMemVx x) s .addressOutOfRange (some (.addr 0x1000))) ∧
    (s.i.toNat + x.val ≤ 0xFFF → (s.params.fontWrite = .write ∨ 0x4F < s.i.toNat) → ∃ t, exec (.ldMemVx x) s = .next t ∧
      (∀ k : Nib, k ≤ x → t.byteAt (s.i.toNat + k.val) = s.reg k) ∧
      (∀ a, a < s.i.toNat ∨ s.i.toNat + x.val < a → t.byteAt a = s.byteAt a) ∧
      t = { s with mem := t.mem, pc := s.pc + 2 })

/-- 43_index_memory R195: V0 to Vx from I on, I and memory unchanged, the font readable; or AddressOutOfRange with no register
written. -/
def Obligations.LoadRegistersOrFaults : Prop :=
  RowDecodes 0xF0FF 0xF065 (fun f => .ldVxMem f.x) ∧
  ∀ (s : State) (x : Nib),
    (0xFFF < s.i.toNat + x.val → FaultsWith (.ldVxMem x) s .addressOutOfRange (some (.addr 0x1000))) ∧
    (s.i.toNat + x.val ≤ 0xFFF → CompletesWithRegisters (.ldVxMem x) s
      (fun k => if k ≤ x then s.byteAt (s.i.toNat + k.val) else s.reg k))

/-- 20_memory R62, 70_reset R286: what LD [I], Vx stores over the word after it is what the next step fetches. -/
def Obligations.StoredWordIsFetchedNext : Prop :=
  ∀ (s t : State) (x : Nib), Running s → exec (.ldMemVx x) s = .next t → Running t → 1 ≤ x.val →
    s.i.toNat = s.pc.toNat + 2 → t.fetch = .ok (wordOfBytes (s.reg 0) (s.reg 1))

/-- Two canonical memories of machines with one font that read the same everywhere are the same data (the form is the model's,
log 17). -/
def Obligations.CanonicalMemoryIsUnique : Prop :=
  ∀ (font : Config.Font) (m m' : Memory), m.wf font → m'.wf font →
    (∀ a, a < Config.memSize → m.read font a = m'.read font a) → m = m'

/-! ## Display -/

/-- 44_display R211. -/
def Obligations.ClearTurnsEveryCellOff : Prop :=
  RowDecodes 0xFFFF 0x00E0 (fun _ => .cls) ∧
  ∀ s : State, ∃ t, exec .cls s = .next t ∧ (∀ c, t.disp.cell c = false) ∧ t.events = s.events ++ [.clearAll, .flush] ∧
    t = { s with disp := t.disp, events := t.events, pc := s.pc + 2 }

/-- 44_display R212: exactly the sprite's cells are flipped, VF says whether a set one was erased, one SetCell with the new
value for each changed cell and then Flush, whatever their order; or AddressOutOfRange with nothing drawn. -/
def Obligations.DrawFlipsExactlyTheSpriteCells : Prop :=
  RowDecodes 0xF000 0xD000 (fun f => .drw f.x f.y f.n) ∧
  ∀ (s : State) (x y n : Nib),
    (0x1000 < s.i.toNat + n.val → FaultsWith (.drw x y n) s .addressOutOfRange (some (.addr 0x1000))) ∧
    (s.i.toNat + n.val ≤ 0x1000 → ∃ t es, exec (.drw x y n) s = .next t ∧
      (∀ c, (SpriteLights s x y n c → t.disp.cell c = !s.disp.cell c) ∧
        (¬ SpriteLights s x y n c → t.disp.cell c = s.disp.cell c)) ∧
      ((∃ c, SpriteLights s x y n c ∧ s.disp.cell c = true) → t.reg 15 = 1) ∧
      ((∀ c, SpriteLights s x y n c → s.disp.cell c = false) → t.reg 15 = 0) ∧
      (∀ k, k ≠ 15 → t.reg k = s.reg k) ∧
      t.events = s.events ++ es ++ [.flush] ∧ es.Nodup ∧
      (∀ e, e ∈ es ↔ ∃ c, SpriteLights s x y n c ∧ e = .setCell c.1 c.2 (!s.disp.cell c)) ∧
      t = { s with disp := t.disp, v := t.v, events := t.events, pc := s.pc + 2 })

/-- 44_display R213 (a), as far as R212 bears it out (log 14): a second draw of the same bytes at the same coordinates, with no
display change between the two, restores the buffer; it reports a collision iff a sprite cell was off before the first. The
second draw runs in any state `s'` that shows the first one's buffer: registers may have been loaded again in between (they must
be where x or y is 15 and VF changed), and the second draw may name other registers. -/
def Obligations.DrawingTwiceRestoresTheBuffer : Prop :=
  ∀ (s : State) (x y n : Nib), s.i.toNat + n.val ≤ 0x1000 → ∃ t, exec (.drw x y n) s = .next t ∧
    ∀ (s' : State) (x' y' : Nib), s'.disp = t.disp → s'.reg x' = s.reg x → s'.reg y' = s.reg y →
      s'.i.toNat + n.val ≤ 0x1000 → (∀ r, r < n.val → s'.byteAt (s'.i.toNat + r) = s.byteAt (s.i.toNat + r)) →
      ∃ u, exec (.drw x' y' n) s' = .next u ∧ u.disp = s.disp ∧
        ((∃ c, SpriteLights s x y n c ∧ s.disp.cell c = false) → u.reg 15 = 1) ∧
        ((∀ c, SpriteLights s x y n c → s.disp.cell c = true) → u.reg 15 = 0)

/-- 44_display R213 (a) from the all-off start, and (b): the first draw reports no collision, the second one does when the
sprite has a 1 bit, and the buffer is all off again. -/
def Obligations.DrawingTwiceFromAllOff : Prop :=
  ∀ (s : State) (x y n : Nib), (∀ c, s.disp.cell c = false) → s.i.toNat + n.val ≤ 0x1000 → x ≠ 15 → y ≠ 15 →
    ∃ t u, exec (.drw x y n) s = .next t ∧ t.reg 15 = 0 ∧ exec (.drw x y n) t = .next u ∧
      (∀ c, u.disp.cell c = false) ∧
      ((∃ r b, r < n.val ∧ b < 8 ∧ (s.byteAt (s.i.toNat + r)).getLsbD b = true) → u.reg 15 = 1)

/-- 44_display R213 (d), R214: a draw emits as many SetCell events as its sprite has 1 bits, no other event before them, and one
Flush after them. -/
def Obligations.DrawEmitsOneEventPerBit : Prop :=
  ∀ (s : State) (x y n : Nib), s.i.toNat + n.val ≤ 0x1000 →
    ∃ t es, exec (.drw x y n) s = .next t ∧ t.events = s.events ++ es ++ [.flush] ∧
      (∀ e ∈ es, ∃ cx cy v, e = .setCell cx cy v) ∧
      es.length = ((List.range n.val).map fun r => ((List.range 8).filter (s.byteAt (s.i.toNat + r)).getLsbD).length).sum

/-! ## Timers, keys and the host's operations -/

/-- 45_timers_keys R231, R232: SKP and SKNP skip by the key Vx names, and fault when it names none. -/
def Obligations.KeySkipsFollowTheSample : Prop :=
  RowDecodes 0xF0FF 0xE09E (fun f => .skp f.x) ∧ RowDecodes 0xF0FF 0xE0A1 (fun f => .sknp f.x) ∧
  ∀ (s : State) (x : Nib),
    ((s.reg x).toNat ≤ 15 →
      exec (.skp x) s = .next { s with pc := if s.keys.getLsbD (s.reg x).toNat then s.pc + 4 else s.pc + 2 } ∧
      exec (.sknp x) s = .next { s with pc := if s.keys.getLsbD (s.reg x).toNat then s.pc + 2 else s.pc + 4 }) ∧
    (15 < (s.reg x).toNat → FaultsWith (.skp x) s .keyIndexOutOfRange (some (.value (s.reg x))) ∧
      FaultsWith (.sknp x) s .keyIndexOutOfRange (some (.value (s.reg x))))

/-- 45_timers_keys R234: with no key pressed nothing changes and pc stays; else Vx is one of the pressed keys, whichever the
free value picks (so the pressed one when there is only one). -/
def Obligations.WaitForKeyTakesAPressedKey : Prop :=
  RowDecodes 0xF0FF 0xF00A (fun f => .ldVxK f.x) ∧
  ∀ (s : State) (x : Nib),
    (s.keys = 0 → exec (.ldVxK x) s = .next s) ∧
    (s.keys ≠ 0 → ∃ t k, exec (.ldVxK x) s = .next t ∧ k < 16 ∧ s.keys.getLsbD k = true ∧ (t.reg x).toNat = k ∧
      (∀ j, j ≠ x → t.reg j = s.reg j) ∧ t = { s with v := t.v, pc := s.pc + 2, draws := s.draws + 1 })

/-- 45_timers_keys R233, R235, R236: moves between Vx and the timers. -/
def Obligations.TimerMoves : Prop :=
  RowDecodes 0xF0FF 0xF007 (fun f => .ldVxDt f.x) ∧ RowDecodes 0xF0FF 0xF015 (fun f => .ldDtVx f.x) ∧
  RowDecodes 0xF0FF 0xF018 (fun f => .ldStVx f.x) ∧
  ∀ (s : State) (x : Nib),
    CompletesWithRegisters (.ldVxDt x) s (fun k => if k = x then s.dt else s.reg k) ∧
    exec (.ldDtVx x) s = .next { s with dt := s.reg x, pc := s.pc + 2 } ∧
    exec (.ldStVx x) s = .next { s with st := s.reg x, pc := s.pc + 2 }

/-- 45_timers_keys R237: a tick counts each non-zero timer down by one, not in a halted machine and not under `absent`. -/
def Obligations.TickCountsTheTimersDown : Prop :=
  ∀ (s : State) (rest : List HostOp), s.pending = .timerTick :: rest →
    (Running s → s.params.timerKeyOps = .standard →
      step s = .next { s with pending := rest, dt := if s.dt = 0 then 0 else s.dt - 1, st := if s.st = 0 then 0 else s.st - 1 }) ∧
    (s.fault ≠ none ∨ s.params.timerKeyOps = .absent → step s = .next { s with pending := rest })

/-- 70_reset R283: a load before the first step of at most 3584 bytes copies them to 0x200 on and touches no other byte; any
other load is refused, reported, and changes nothing else. -/
def Obligations.LoadProgramCopiesOrRefuses : Prop :=
  ∀ (s : State) (bytes : List Byte) (rest : List HostOp), s.pending = .loadProgram bytes :: rest →
    (s.started = false → bytes.length ≤ 3584 → ∃ t, step s = .next t ∧
      (∀ k (h : k < bytes.length), t.byteAt (0x200 + k) = bytes[k]) ∧
      (∀ a, a < 0x200 ∨ 0x200 + bytes.length ≤ a → t.byteAt a = s.byteAt a) ∧
      t = { s with pending := rest, mem := t.mem, loadReplies := s.loadReplies ++ [.accepted] }) ∧
    (s.started = true ∨ 3584 < bytes.length →
      step s = .next { s with pending := rest, loadReplies := s.loadReplies ++ [.refused] })
end

