-- ==== Sys2Proof/Laws/Decode.lean ====
section
/-! SUPPORT. The fields of the words the encoder builds (spec/30_encoding.md R81, R82), and what a mask keeps of them. -/

namespace Sys2Proof

@[simp] theorem nibbleBits_toNat (x : Nib) : (nibbleBits x).toNat = x.val := by
  have := x.isLt
  simp only [nibbleBits, BitVec.toNat_ofNat]
  omega

theorem encFA_toNat (op : BitVec 4) (nnn : Addr) : (encFA op nnn).toNat = op.toNat * 4096 + nnn.toNat := by
  have := nnn.isLt
  simp only [encFA, BitVec.toNat_append, Nat.shiftLeft_eq]
  rw [← Nat.shiftLeft_eq, Nat.shiftLeft_add_eq_or_of_lt this]

theorem encFXK_toNat (op : BitVec 4) (x : Nib) (kk : Byte) :
    (encFXK op x kk).toNat = op.toNat * 4096 + x.val * 256 + kk.toNat := by
  have h1 := kk.isLt
  have h2 := (nibbleBits x).isLt
  simp only [encFXK, BitVec.toNat_append]
  rw [← Nat.shiftLeft_add_eq_or_of_lt h1, ← Nat.shiftLeft_add_eq_or_of_lt h2, nibbleBits_toNat]
  simp only [Nat.shiftLeft_eq]
  omega

theorem encFXYN_toNat (op : BitVec 4) (x y : Nib) (n : BitVec 4) :
    (encFXYN op x y n).toNat = op.toNat * 4096 + x.val * 256 + y.val * 16 + n.toNat := by
  have h1 := n.isLt
  have h2 := (nibbleBits x).isLt
  have h3 := (nibbleBits y).isLt
  simp only [encFXYN, BitVec.toNat_append]
  rw [← Nat.shiftLeft_add_eq_or_of_lt h1, ← Nat.shiftLeft_add_eq_or_of_lt h3, ← Nat.shiftLeft_add_eq_or_of_lt h2,
    nibbleBits_toNat, nibbleBits_toNat]
  simp only [Nat.shiftLeft_eq]
  omega

theorem nibbleAt_val (w : Word) (lo : Nat) : (nibbleAt w lo).val = w.toNat / 2 ^ lo % 16 := by
  simp [nibbleAt, BitVec.extractLsb'_toNat, Nat.shiftRight_eq_div_pow]

theorem fieldsOf_kk_toNat (w : Word) : (fieldsOf w).kk.toNat = w.toNat % 256 := by
  simp [fieldsOf, BitVec.extractLsb'_toNat]

theorem fieldsOf_nnn_toNat (w : Word) : (fieldsOf w).nnn.toNat = w.toNat % 4096 := by
  simp [fieldsOf, BitVec.extractLsb'_toNat]

@[simp] theorem fieldsOf_encFA_nnn (op : BitVec 4) (nnn : Addr) : (fieldsOf (encFA op nnn)).nnn = nnn := by
  apply BitVec.eq_of_toNat_eq
  have := nnn.isLt
  rw [fieldsOf_nnn_toNat, encFA_toNat]
  omega

@[simp] theorem fieldsOf_encFXK_kk (op : BitVec 4) (x : Nib) (kk : Byte) : (fieldsOf (encFXK op x kk)).kk = kk := by
  apply BitVec.eq_of_toNat_eq
  have := kk.isLt
  rw [fieldsOf_kk_toNat, encFXK_toNat]
  omega

@[simp] theorem fieldsOf_encFXK_x (op : BitVec 4) (x : Nib) (kk : Byte) : (fieldsOf (encFXK op x kk)).x = x := by
  apply Fin.ext
  have := kk.isLt
  have := x.isLt
  simp only [fieldsOf, nibbleAt_val, encFXK_toNat]
  omega

@[simp] theorem fieldsOf_encFXYN_x (op : BitVec 4) (x y : Nib) (n : BitVec 4) : (fieldsOf (encFXYN op x y n)).x = x := by
  apply Fin.ext
  have := n.isLt
  have := x.isLt
  have := y.isLt
  simp only [fieldsOf, nibbleAt_val, encFXYN_toNat]
  omega

@[simp] theorem fieldsOf_encFXYN_y (op : BitVec 4) (x y : Nib) (n : BitVec 4) : (fieldsOf (encFXYN op x y n)).y = y := by
  apply Fin.ext
  have := n.isLt
  have := x.isLt
  have := y.isLt
  simp only [fieldsOf, nibbleAt_val, encFXYN_toNat]
  omega

@[simp] theorem fieldsOf_encFXYN_n (op : BitVec 4) (x y n : Nib) :
    (fieldsOf (encFXYN op x y (nibbleBits n))).n = n := by
  apply Fin.ext
  have := n.isLt
  have := x.isLt
  have := y.isLt
  simp only [fieldsOf, nibbleAt_val, encFXYN_toNat, nibbleBits_toNat]
  omega

/-! ## Masks, as arithmetic on the word's value -/

theorem mask_F000 (w : Word) : (w &&& 0xF000#16).toNat = w.toNat / 4096 * 4096 := by
  have h : w &&& 0xF000#16 = (w >>> 12) <<< 12 := by
    ext i hi
    simp only [BitVec.getElem_and, BitVec.getElem_shiftLeft, BitVec.getElem_ushiftRight]
    interval_cases i <;> simp
  have := w.isLt
  rw [h]
  simp only [BitVec.toNat_shiftLeft, BitVec.toNat_ushiftRight, Nat.shiftRight_eq_div_pow, Nat.shiftLeft_eq]
  omega

theorem mask_000F (w : Word) : (w &&& 0x000F#16).toNat = w.toNat % 16 := by
  rw [BitVec.toNat_and]
  exact Nat.and_two_pow_sub_one_eq_mod _ 4

theorem mask_00FF (w : Word) : (w &&& 0x00FF#16).toNat = w.toNat % 256 := by
  rw [BitVec.toNat_and]
  exact Nat.and_two_pow_sub_one_eq_mod _ 8

/-- A mask that keeps the high nibble and low bits keeps them independently. -/
theorem mask_split (w : Word) (m : Word) (hm : m &&& 0xF000#16 = 0#16) :
    (w &&& (0xF000#16 ||| m)).toNat = (w &&& 0xF000#16).toNat + (w &&& m).toNat := by
  have hd : (w &&& 0xF000#16) &&& (w &&& m) = 0#16 := by
    rw [show (w &&& 0xF000#16) &&& (w &&& m) = w &&& (m &&& 0xF000#16) by
      ext i hi; simp only [BitVec.getElem_and]; cases w[i] <;> cases m[i] <;> simp, hm]
    simp
  rw [show w &&& (0xF000#16 ||| m) = (w &&& 0xF000#16) ||| (w &&& m) by
    ext i hi; simp only [BitVec.getElem_and, BitVec.getElem_or]; cases w[i] <;> simp, ← BitVec.add_eq_or_of_and_eq_zero _ _ hd,
    BitVec.toNat_add_of_and_eq_zero hd]

theorem mask_F00F (w : Word) : (w &&& 0xF00F#16).toNat = w.toNat / 4096 * 4096 + w.toNat % 16 := by
  have := mask_split w 0x000F#16 (by decide)
  rw [mask_F000, mask_000F] at this
  exact this

theorem mask_F0FF (w : Word) : (w &&& 0xF0FF#16).toNat = w.toNat / 4096 * 4096 + w.toNat % 256 := by
  have := mask_split w 0x00FF#16 (by decide)
  rw [mask_F000, mask_00FF] at this
  exact this

theorem mask_FFFF (w : Word) : w &&& 0xFFFF#16 = w := by
  ext i hi
  simp only [BitVec.getElem_and]
  interval_cases i <;> simp

/-- A row accepts a word, said of the word's value: the form `FA`, `FXK` and `FXYN` rows have. -/
theorem accepts_F000 (w p : Word) (f : Fields → Instr) :
    Row.accepts ⟨0xF000#16, p, f⟩ w = decide (w.toNat / 4096 * 4096 = p.toNat) := by
  rw [← mask_F000]
  exact Bool.eq_iff_iff.mpr (by simp [Row.accepts, ← BitVec.toNat_inj])

/-- The form `FXY` and `FX` rows have. -/
theorem accepts_F00F (w p : Word) (f : Fields → Instr) :
    Row.accepts ⟨0xF00F#16, p, f⟩ w = decide (w.toNat / 4096 * 4096 + w.toNat % 16 = p.toNat) := by
  rw [← mask_F00F]
  exact Bool.eq_iff_iff.mpr (by simp [Row.accepts, ← BitVec.toNat_inj])

/-- The form `FXF` rows have. -/
theorem accepts_F0FF (w p : Word) (f : Fields → Instr) :
    Row.accepts ⟨0xF0FF#16, p, f⟩ w = decide (w.toNat / 4096 * 4096 + w.toNat % 256 = p.toNat) := by
  rw [← mask_F0FF]
  exact Bool.eq_iff_iff.mpr (by simp [Row.accepts, ← BitVec.toNat_inj])

/-- The form `F0` rows have. -/
theorem accepts_FFFF (w p : Word) (f : Fields → Instr) :
    Row.accepts ⟨0xFFFF#16, p, f⟩ w = decide (w.toNat = p.toNat) := by
  have h : w &&& 0xFFFF#16 = w := mask_FFFF w
  exact Bool.eq_iff_iff.mpr (by simp only [Row.accepts, h, beq_iff_eq, decide_eq_true_eq, BitVec.toNat_inj])

/-- The scan of the table, entry by entry (R86). -/
theorem find_cons (r : Row) (rows : List Row) (w : Word) :
    (r :: rows).find? (·.accepts w) = if r.accepts w = true then some r else rows.find? (·.accepts w) := by
  cases h : r.accepts w <;> simp [h]

/-! ## The encoder's words and the rows of their formats -/

theorem accepts_encFA (op : BitVec 4) (nnn : Addr) (p : Word) (f : Fields → Instr) (h : p.toNat = op.toNat * 4096) :
    Row.accepts ⟨0xF000#16, p, f⟩ (encFA op nnn) = true := by
  have := nnn.isLt
  rw [accepts_F000, encFA_toNat, decide_eq_true_eq]
  omega

theorem accepts_encFXK (op : BitVec 4) (x : Nib) (kk : Byte) (p : Word) (f : Fields → Instr) (h : p.toNat = op.toNat * 4096) :
    Row.accepts ⟨0xF000#16, p, f⟩ (encFXK op x kk) = true := by
  have := kk.isLt
  have := x.isLt
  rw [accepts_F000, encFXK_toNat, decide_eq_true_eq]
  omega

theorem accepts_encFXYN (op : BitVec 4) (x y : Nib) (n : BitVec 4) (p : Word) (f : Fields → Instr)
    (h : p.toNat = op.toNat * 4096) : Row.accepts ⟨0xF000#16, p, f⟩ (encFXYN op x y n) = true := by
  have := n.isLt
  have := x.isLt
  have := y.isLt
  rw [accepts_F000, encFXYN_toNat, decide_eq_true_eq]
  omega

theorem accepts_encFXY (op : BitVec 4) (x y : Nib) (n : BitVec 4) (p : Word) (f : Fields → Instr)
    (h : p.toNat = op.toNat * 4096 + n.toNat) : Row.accepts ⟨0xF00F#16, p, f⟩ (encFXYN op x y n) = true := by
  have := n.isLt
  have := x.isLt
  have := y.isLt
  rw [accepts_F00F, encFXYN_toNat, decide_eq_true_eq]
  omega

theorem accepts_encFXF (op : BitVec 4) (x : Nib) (kk : Byte) (p : Word) (f : Fields → Instr)
    (h : p.toNat = op.toNat * 4096 + kk.toNat) : Row.accepts ⟨0xF0FF#16, p, f⟩ (encFXK op x kk) = true := by
  have := kk.isLt
  have := x.isLt
  rw [accepts_F0FF, encFXK_toNat, decide_eq_true_eq]
  omega

/-- The two bytes of a word, put together again (20_memory R52). -/
@[simp] theorem wordOfBytes_highByte_lowByte (w : Word) : wordOfBytes (highByte w) (lowByte w) = w := by
  apply BitVec.eq_of_toNat_eq
  have h1 := (lowByte w).isLt
  have h2 := w.isLt
  simp only [wordOfBytes, BitVec.toNat_append]
  rw [← Nat.shiftLeft_add_eq_or_of_lt h1]
  simp only [highByte, lowByte, BitVec.extractLsb'_toNat, Nat.shiftRight_eq_div_pow, Nat.shiftLeft_eq]
  omega

end Sys2Proof
end

