-- ==== Sys2Proof/Laws/Memory.lean ====
section
/-! SUPPORT. What storing does to what is read, and that storing keeps the canonical form. -/

namespace Sys2Proof.Machine

variable (font : Config.Font)

/-- The reset contents of the font region are the machine's font (70_reset R280, 10_state R31). -/
theorem Memory.initial_font (a : Nat) (h : a < Config.fontSize) : Memory.initial font a = font[a] := by
  simp [Memory.initial, List.getD_eq_getElem?_getD, h]

/-- The reset contents above the font region are zero (R280). -/
theorem Memory.initial_above (a : Nat) (h : Config.fontSize ≤ a) : Memory.initial font a = 0 := by
  simp [Memory.initial, List.getD_eq_getElem?_getD, h]

@[simp] theorem Memory.read_nil (a : Nat) : Memory.read font [] a = Memory.initial font a := rfl

theorem Memory.read_cons (c : Host.Cell) (m : Memory) (a : Nat) :
    Memory.read font (c :: m) a = if c.1 = a then c.2 else Memory.read font m a := rfl

/-- An address that is not listed reads as its reset content. -/
theorem Memory.read_of_not_listed (m : Memory) (a : Nat) (h : ∀ c ∈ m, c.1 ≠ a) : Memory.read font m a = Memory.initial font a := by
  induction m with
  | nil => rfl
  | cons c m ih =>
    rw [Memory.read_cons, if_neg (h c (by simp))]
    exact ih fun d hd => h d (by simp [hd])

theorem Memory.read_erase (m : Memory) (a b : Nat) :
    Memory.read font (Memory.erase m a) b = if b = a then Memory.initial font b else Memory.read font m b := by
  induction m with
  | nil => simp [Memory.erase]
  | cons c m ih =>
    simp only [Memory.erase, List.filter_cons] at ih ⊢
    by_cases hc : c.1 = a
    · simp only [hc, bne_self_eq_false, Bool.false_eq_true, if_false, ih, Memory.read_cons]
      by_cases hb : b = a
      · simp [hb]
      · simp [hb, Ne.symm hb]
    · simp only [bne_iff_ne, ne_eq, hc, not_false_eq_true, if_true, Memory.read_cons, ih]
      by_cases hb : b = a
      · subst hb; simp [hc]
      · simp [hb]

theorem Memory.read_insert (m : Memory) (a : Nat) (v : Byte) (b : Nat) (hm : ∀ c ∈ m, c.1 ≠ a) :
    Memory.read font (Memory.insert m a v) b = if b = a then v else Memory.read font m b := by
  induction m with
  | nil => simp [Memory.insert, Memory.read_cons, eq_comm]
  | cons c m ih =>
    have hc : c.1 ≠ a := hm c (by simp)
    have ih := ih fun d hd => hm d (by simp [hd])
    simp only [Memory.insert]
    by_cases hlt : a < c.1
    · simp only [hlt, if_true, Memory.read_cons, eq_comm]
    · simp only [hlt, if_false, Memory.read_cons, ih]
      by_cases hb : b = a
      · subst hb; simp [hc]
      · simp [hb]

theorem Memory.not_listed_erase (m : Memory) (a : Nat) : ∀ c ∈ Memory.erase m a, c.1 ≠ a := by
  intro c hc
  simpa [Memory.erase] using (List.mem_filter.mp hc).2

/-- A read after a write: the byte at the written address, every other byte as before (20_memory R54, R60). -/
@[simp] theorem Memory.read_write (m : Memory) (a : Nat) (v : Byte) (b : Nat) :
    Memory.read font (Memory.write font m a v) b = if b = a then v else Memory.read font m b := by
  unfold Memory.write
  split
  · rename_i h
    rw [Memory.read_erase]
    by_cases hb : b = a
    · simp [hb, h]
    · simp [hb]
  · rw [Memory.read_insert font _ _ _ _ (Memory.not_listed_erase m a), Memory.read_erase]
    by_cases hb : b = a <;> simp [hb]

theorem Memory.mem_insert (m : Memory) (a : Nat) (v : Byte) (c : Host.Cell) :
    c ∈ Memory.insert m a v ↔ c = (a, v) ∨ c ∈ m := by
  induction m with
  | nil => simp [Memory.insert]
  | cons d m ih =>
    simp only [Memory.insert]
    split
    · simp
    · simp only [List.mem_cons, ih]
      tauto

theorem Memory.rising_insert (m : Memory) (a : Nat) (v : Byte) (hm : m.Pairwise fun c d => c.1 < d.1)
    (ha : ∀ c ∈ m, c.1 ≠ a) : (Memory.insert m a v).Pairwise fun c d => c.1 < d.1 := by
  induction m with
  | nil => simp [Memory.insert]
  | cons c m ih =>
    obtain ⟨hc, hm⟩ := List.pairwise_cons.mp hm
    have hca : c.1 ≠ a := ha c (by simp)
    simp only [Memory.insert]
    split
    · rename_i hlt
      refine List.pairwise_cons.mpr ⟨?_, List.pairwise_cons.mpr ⟨hc, hm⟩⟩
      intro d hd
      rcases List.mem_cons.mp hd with rfl | hd
      · exact hlt
      · exact lt_trans hlt (hc d hd)
    · refine List.pairwise_cons.mpr ⟨?_, ih hm fun d hd => ha d (by simp [hd])⟩
      intro d hd
      rcases (Memory.mem_insert m a v d).mp hd with rfl | hd
      · show c.1 < a
        omega
      · exact hc d hd

theorem Memory.wf_erase (m : Memory) (a : Nat) (h : Memory.wf font m) : Memory.wf font (Memory.erase m a) :=
  ⟨h.1.sublist List.filter_sublist, fun c hc => h.2 c (List.mem_of_mem_filter hc)⟩

/-- Storing a byte at an address of the machine keeps the canonical form. -/
theorem Memory.wf_write (m : Memory) (a : Nat) (v : Byte) (ha : a < Config.memSize) (h : Memory.wf font m) :
    Memory.wf font (Memory.write font m a v) := by
  unfold Memory.write
  split
  · exact Memory.wf_erase font m a h
  · rename_i hv
    have he := Memory.wf_erase font m a h
    refine ⟨Memory.rising_insert _ _ _ he.1 (Memory.not_listed_erase m a), fun c hc => ?_⟩
    rcases (Memory.mem_insert _ a v c).mp hc with rfl | hc
    · exact ⟨ha, hv⟩
    · exact he.2 c hc

/-- Storing a run of bytes: the bytes at their addresses, every other byte as before. -/
theorem Memory.read_writeList (bytes : List Byte) (m : Memory) (a b : Nat) :
    Memory.read font (Memory.writeList font m a bytes) b =
      if a ≤ b ∧ b < a + bytes.length then bytes.getD (b - a) 0 else Memory.read font m b := by
  induction bytes generalizing m a with
  | nil => simp only [Memory.writeList, List.length_nil, Nat.add_zero]; rw [if_neg (by omega)]
  | cons v rest ih =>
    simp only [Memory.writeList, ih, Memory.read_write, List.length_cons]
    by_cases h0 : b = a
    · subst h0
      rw [if_neg (by omega), if_pos rfl, if_pos (by omega)]
      simp
    · by_cases h1 : a + 1 ≤ b ∧ b < a + 1 + rest.length
      · rw [if_pos h1, if_pos (by omega), show b - a = (b - (a + 1)) + 1 by omega]
        simp
      · rw [if_neg h1, if_neg h0, if_neg (by omega)]

theorem Memory.wf_writeList (bytes : List Byte) (m : Memory) (a : Nat) (ha : a + bytes.length ≤ Config.memSize)
    (h : Memory.wf font m) : Memory.wf font (Memory.writeList font m a bytes) := by
  induction bytes generalizing m a with
  | nil => exact h
  | cons v rest ih =>
    simp only [List.length_cons] at ha
    exact ih _ _ (by omega) (Memory.wf_write font m a v (by omega) h)

end Sys2Proof.Machine
end

