-- ==== Sys2Proof/Laws/State.lean ====
section
/-! SUPPORT. One lemma per field per named update of the state, so that no proof unfolds a record update; and the registers
seen through `State.reg`. -/

namespace Sys2Proof.Machine

section
variable (s : State) (x : Nib) (n : Nat)

@[simp] theorem State.setV_v : (s.setV x n).v = s.v.set x (BitVec.ofNat 8 n) := rfl
@[simp] theorem State.setV_i : (s.setV x n).i = s.i := rfl
@[simp] theorem State.setV_pc : (s.setV x n).pc = s.pc := rfl
@[simp] theorem State.setV_stack : (s.setV x n).stack = s.stack := rfl
@[simp] theorem State.setV_sp : (s.setV x n).sp = s.sp := rfl
@[simp] theorem State.setV_mem : (s.setV x n).mem = s.mem := rfl
@[simp] theorem State.setV_disp : (s.setV x n).disp = s.disp := rfl
@[simp] theorem State.setV_dt : (s.setV x n).dt = s.dt := rfl
@[simp] theorem State.setV_st : (s.setV x n).st = s.st := rfl
@[simp] theorem State.setV_fault : (s.setV x n).fault = s.fault := rfl
@[simp] theorem State.setV_started : (s.setV x n).started = s.started := rfl
@[simp] theorem State.setV_events : (s.setV x n).events = s.events := rfl
@[simp] theorem State.setV_keys : (s.setV x n).keys = s.keys := rfl
@[simp] theorem State.setV_pending : (s.setV x n).pending = s.pending := rfl
@[simp] theorem State.setV_loadReplies : (s.setV x n).loadReplies = s.loadReplies := rfl
@[simp] theorem State.setV_draws : (s.setV x n).draws = s.draws := rfl
@[simp] theorem State.setV_params : (s.setV x n).params = s.params := rfl

end

section
variable (s : State) (f : Byte)

@[simp] theorem State.setVF_v : (s.setVF f).v = s.v.set regVF (BitVec.ofNat 8 f.toNat) := rfl
@[simp] theorem State.setVF_i : (s.setVF f).i = s.i := rfl
@[simp] theorem State.setVF_pc : (s.setVF f).pc = s.pc := rfl
@[simp] theorem State.setVF_stack : (s.setVF f).stack = s.stack := rfl
@[simp] theorem State.setVF_sp : (s.setVF f).sp = s.sp := rfl
@[simp] theorem State.setVF_mem : (s.setVF f).mem = s.mem := rfl
@[simp] theorem State.setVF_disp : (s.setVF f).disp = s.disp := rfl
@[simp] theorem State.setVF_dt : (s.setVF f).dt = s.dt := rfl
@[simp] theorem State.setVF_st : (s.setVF f).st = s.st := rfl
@[simp] theorem State.setVF_fault : (s.setVF f).fault = s.fault := rfl
@[simp] theorem State.setVF_started : (s.setVF f).started = s.started := rfl
@[simp] theorem State.setVF_events : (s.setVF f).events = s.events := rfl
@[simp] theorem State.setVF_keys : (s.setVF f).keys = s.keys := rfl
@[simp] theorem State.setVF_pending : (s.setVF f).pending = s.pending := rfl
@[simp] theorem State.setVF_loadReplies : (s.setVF f).loadReplies = s.loadReplies := rfl
@[simp] theorem State.setVF_draws : (s.setVF f).draws = s.draws := rfl
@[simp] theorem State.setVF_params : (s.setVF f).params = s.params := rfl

end

section
variable (s : State) (n : Nat)

@[simp] theorem State.setI_v : (s.setI n).v = s.v := rfl
@[simp] theorem State.setI_i : (s.setI n).i = BitVec.ofNat 12 n := rfl
@[simp] theorem State.setI_pc : (s.setI n).pc = s.pc := rfl
@[simp] theorem State.setI_stack : (s.setI n).stack = s.stack := rfl
@[simp] theorem State.setI_sp : (s.setI n).sp = s.sp := rfl
@[simp] theorem State.setI_mem : (s.setI n).mem = s.mem := rfl
@[simp] theorem State.setI_disp : (s.setI n).disp = s.disp := rfl
@[simp] theorem State.setI_dt : (s.setI n).dt = s.dt := rfl
@[simp] theorem State.setI_st : (s.setI n).st = s.st := rfl
@[simp] theorem State.setI_fault : (s.setI n).fault = s.fault := rfl
@[simp] theorem State.setI_started : (s.setI n).started = s.started := rfl
@[simp] theorem State.setI_events : (s.setI n).events = s.events := rfl
@[simp] theorem State.setI_keys : (s.setI n).keys = s.keys := rfl
@[simp] theorem State.setI_pending : (s.setI n).pending = s.pending := rfl
@[simp] theorem State.setI_loadReplies : (s.setI n).loadReplies = s.loadReplies := rfl
@[simp] theorem State.setI_draws : (s.setI n).draws = s.draws := rfl
@[simp] theorem State.setI_params : (s.setI n).params = s.params := rfl

end

section
variable (s : State) (n : Nat)

@[simp] theorem State.setPc_v : (s.setPc n).v = s.v := rfl
@[simp] theorem State.setPc_i : (s.setPc n).i = s.i := rfl
@[simp] theorem State.setPc_pc : (s.setPc n).pc = BitVec.ofNat 12 n := rfl
@[simp] theorem State.setPc_stack : (s.setPc n).stack = s.stack := rfl
@[simp] theorem State.setPc_sp : (s.setPc n).sp = s.sp := rfl
@[simp] theorem State.setPc_mem : (s.setPc n).mem = s.mem := rfl
@[simp] theorem State.setPc_disp : (s.setPc n).disp = s.disp := rfl
@[simp] theorem State.setPc_dt : (s.setPc n).dt = s.dt := rfl
@[simp] theorem State.setPc_st : (s.setPc n).st = s.st := rfl
@[simp] theorem State.setPc_fault : (s.setPc n).fault = s.fault := rfl
@[simp] theorem State.setPc_started : (s.setPc n).started = s.started := rfl
@[simp] theorem State.setPc_events : (s.setPc n).events = s.events := rfl
@[simp] theorem State.setPc_keys : (s.setPc n).keys = s.keys := rfl
@[simp] theorem State.setPc_pending : (s.setPc n).pending = s.pending := rfl
@[simp] theorem State.setPc_loadReplies : (s.setPc n).loadReplies = s.loadReplies := rfl
@[simp] theorem State.setPc_draws : (s.setPc n).draws = s.draws := rfl
@[simp] theorem State.setPc_params : (s.setPc n).params = s.params := rfl

end

section
variable (s : State)

@[simp] theorem State.advance_v : s.advance.v = s.v := rfl
@[simp] theorem State.advance_i : s.advance.i = s.i := rfl
@[simp] theorem State.advance_pc : s.advance.pc = BitVec.ofNat 12 (s.pc.toNat + 2) := rfl
@[simp] theorem State.advance_stack : s.advance.stack = s.stack := rfl
@[simp] theorem State.advance_sp : s.advance.sp = s.sp := rfl
@[simp] theorem State.advance_mem : s.advance.mem = s.mem := rfl
@[simp] theorem State.advance_disp : s.advance.disp = s.disp := rfl
@[simp] theorem State.advance_dt : s.advance.dt = s.dt := rfl
@[simp] theorem State.advance_st : s.advance.st = s.st := rfl
@[simp] theorem State.advance_fault : s.advance.fault = s.fault := rfl
@[simp] theorem State.advance_started : s.advance.started = s.started := rfl
@[simp] theorem State.advance_events : s.advance.events = s.events := rfl
@[simp] theorem State.advance_keys : s.advance.keys = s.keys := rfl
@[simp] theorem State.advance_pending : s.advance.pending = s.pending := rfl
@[simp] theorem State.advance_loadReplies : s.advance.loadReplies = s.loadReplies := rfl
@[simp] theorem State.advance_draws : s.advance.draws = s.draws := rfl
@[simp] theorem State.advance_params : s.advance.params = s.params := rfl

end

section
variable (s : State)

@[simp] theorem State.skip_v : s.skip.v = s.v := rfl
@[simp] theorem State.skip_i : s.skip.i = s.i := rfl
@[simp] theorem State.skip_pc : s.skip.pc = BitVec.ofNat 12 (s.pc.toNat + 4) := rfl
@[simp] theorem State.skip_stack : s.skip.stack = s.stack := rfl
@[simp] theorem State.skip_sp : s.skip.sp = s.sp := rfl
@[simp] theorem State.skip_mem : s.skip.mem = s.mem := rfl
@[simp] theorem State.skip_disp : s.skip.disp = s.disp := rfl
@[simp] theorem State.skip_dt : s.skip.dt = s.dt := rfl
@[simp] theorem State.skip_st : s.skip.st = s.st := rfl
@[simp] theorem State.skip_fault : s.skip.fault = s.fault := rfl
@[simp] theorem State.skip_started : s.skip.started = s.started := rfl
@[simp] theorem State.skip_events : s.skip.events = s.events := rfl
@[simp] theorem State.skip_keys : s.skip.keys = s.keys := rfl
@[simp] theorem State.skip_pending : s.skip.pending = s.pending := rfl
@[simp] theorem State.skip_loadReplies : s.skip.loadReplies = s.loadReplies := rfl
@[simp] theorem State.skip_draws : s.skip.draws = s.draws := rfl
@[simp] theorem State.skip_params : s.skip.params = s.params := rfl

end

section
variable (s : State) (es : List DisplayEvent)

@[simp] theorem State.emit_v : (s.emit es).v = s.v := rfl
@[simp] theorem State.emit_i : (s.emit es).i = s.i := rfl
@[simp] theorem State.emit_pc : (s.emit es).pc = s.pc := rfl
@[simp] theorem State.emit_stack : (s.emit es).stack = s.stack := rfl
@[simp] theorem State.emit_sp : (s.emit es).sp = s.sp := rfl
@[simp] theorem State.emit_mem : (s.emit es).mem = s.mem := rfl
@[simp] theorem State.emit_disp : (s.emit es).disp = s.disp := rfl
@[simp] theorem State.emit_dt : (s.emit es).dt = s.dt := rfl
@[simp] theorem State.emit_st : (s.emit es).st = s.st := rfl
@[simp] theorem State.emit_fault : (s.emit es).fault = s.fault := rfl
@[simp] theorem State.emit_started : (s.emit es).started = s.started := rfl
@[simp] theorem State.emit_events : (s.emit es).events = s.events ++ es := rfl
@[simp] theorem State.emit_keys : (s.emit es).keys = s.keys := rfl
@[simp] theorem State.emit_pending : (s.emit es).pending = s.pending := rfl
@[simp] theorem State.emit_loadReplies : (s.emit es).loadReplies = s.loadReplies := rfl
@[simp] theorem State.emit_draws : (s.emit es).draws = s.draws := rfl
@[simp] theorem State.emit_params : (s.emit es).params = s.params := rfl

end

section
variable (s : State)

@[simp] theorem State.countDraw_v : s.countDraw.v = s.v := rfl
@[simp] theorem State.countDraw_i : s.countDraw.i = s.i := rfl
@[simp] theorem State.countDraw_pc : s.countDraw.pc = s.pc := rfl
@[simp] theorem State.countDraw_stack : s.countDraw.stack = s.stack := rfl
@[simp] theorem State.countDraw_sp : s.countDraw.sp = s.sp := rfl
@[simp] theorem State.countDraw_mem : s.countDraw.mem = s.mem := rfl
@[simp] theorem State.countDraw_disp : s.countDraw.disp = s.disp := rfl
@[simp] theorem State.countDraw_dt : s.countDraw.dt = s.dt := rfl
@[simp] theorem State.countDraw_st : s.countDraw.st = s.st := rfl
@[simp] theorem State.countDraw_fault : s.countDraw.fault = s.fault := rfl
@[simp] theorem State.countDraw_started : s.countDraw.started = s.started := rfl
@[simp] theorem State.countDraw_events : s.countDraw.events = s.events := rfl
@[simp] theorem State.countDraw_keys : s.countDraw.keys = s.keys := rfl
@[simp] theorem State.countDraw_pending : s.countDraw.pending = s.pending := rfl
@[simp] theorem State.countDraw_loadReplies : s.countDraw.loadReplies = s.loadReplies := rfl
@[simp] theorem State.countDraw_draws : s.countDraw.draws = s.draws + 1 := rfl
@[simp] theorem State.countDraw_params : s.countDraw.params = s.params := rfl

end

section
variable (s : State) (b : Byte)

@[simp] theorem State.setDt_v : (s.setDt b).v = s.v := rfl
@[simp] theorem State.setDt_i : (s.setDt b).i = s.i := rfl
@[simp] theorem State.setDt_pc : (s.setDt b).pc = s.pc := rfl
@[simp] theorem State.setDt_stack : (s.setDt b).stack = s.stack := rfl
@[simp] theorem State.setDt_sp : (s.setDt b).sp = s.sp := rfl
@[simp] theorem State.setDt_mem : (s.setDt b).mem = s.mem := rfl
@[simp] theorem State.setDt_disp : (s.setDt b).disp = s.disp := rfl
@[simp] theorem State.setDt_dt : (s.setDt b).dt = b := rfl
@[simp] theorem State.setDt_st : (s.setDt b).st = s.st := rfl
@[simp] theorem State.setDt_fault : (s.setDt b).fault = s.fault := rfl
@[simp] theorem State.setDt_started : (s.setDt b).started = s.started := rfl
@[simp] theorem State.setDt_events : (s.setDt b).events = s.events := rfl
@[simp] theorem State.setDt_keys : (s.setDt b).keys = s.keys := rfl
@[simp] theorem State.setDt_pending : (s.setDt b).pending = s.pending := rfl
@[simp] theorem State.setDt_loadReplies : (s.setDt b).loadReplies = s.loadReplies := rfl
@[simp] theorem State.setDt_draws : (s.setDt b).draws = s.draws := rfl
@[simp] theorem State.setDt_params : (s.setDt b).params = s.params := rfl

end

section
variable (s : State) (b : Byte)

@[simp] theorem State.setSt_v : (s.setSt b).v = s.v := rfl
@[simp] theorem State.setSt_i : (s.setSt b).i = s.i := rfl
@[simp] theorem State.setSt_pc : (s.setSt b).pc = s.pc := rfl
@[simp] theorem State.setSt_stack : (s.setSt b).stack = s.stack := rfl
@[simp] theorem State.setSt_sp : (s.setSt b).sp = s.sp := rfl
@[simp] theorem State.setSt_mem : (s.setSt b).mem = s.mem := rfl
@[simp] theorem State.setSt_disp : (s.setSt b).disp = s.disp := rfl
@[simp] theorem State.setSt_dt : (s.setSt b).dt = s.dt := rfl
@[simp] theorem State.setSt_st : (s.setSt b).st = b := rfl
@[simp] theorem State.setSt_fault : (s.setSt b).fault = s.fault := rfl
@[simp] theorem State.setSt_started : (s.setSt b).started = s.started := rfl
@[simp] theorem State.setSt_events : (s.setSt b).events = s.events := rfl
@[simp] theorem State.setSt_keys : (s.setSt b).keys = s.keys := rfl
@[simp] theorem State.setSt_pending : (s.setSt b).pending = s.pending := rfl
@[simp] theorem State.setSt_loadReplies : (s.setSt b).loadReplies = s.loadReplies := rfl
@[simp] theorem State.setSt_draws : (s.setSt b).draws = s.draws := rfl
@[simp] theorem State.setSt_params : (s.setSt b).params = s.params := rfl

end

section
variable (s : State) (m : Memory)

@[simp] theorem State.setMem_v : (s.setMem m).v = s.v := rfl
@[simp] theorem State.setMem_i : (s.setMem m).i = s.i := rfl
@[simp] theorem State.setMem_pc : (s.setMem m).pc = s.pc := rfl
@[simp] theorem State.setMem_stack : (s.setMem m).stack = s.stack := rfl
@[simp] theorem State.setMem_sp : (s.setMem m).sp = s.sp := rfl
@[simp] theorem State.setMem_mem : (s.setMem m).mem = m := rfl
@[simp] theorem State.setMem_disp : (s.setMem m).disp = s.disp := rfl
@[simp] theorem State.setMem_dt : (s.setMem m).dt = s.dt := rfl
@[simp] theorem State.setMem_st : (s.setMem m).st = s.st := rfl
@[simp] theorem State.setMem_fault : (s.setMem m).fault = s.fault := rfl
@[simp] theorem State.setMem_started : (s.setMem m).started = s.started := rfl
@[simp] theorem State.setMem_events : (s.setMem m).events = s.events := rfl
@[simp] theorem State.setMem_keys : (s.setMem m).keys = s.keys := rfl
@[simp] theorem State.setMem_pending : (s.setMem m).pending = s.pending := rfl
@[simp] theorem State.setMem_loadReplies : (s.setMem m).loadReplies = s.loadReplies := rfl
@[simp] theorem State.setMem_draws : (s.setMem m).draws = s.draws := rfl
@[simp] theorem State.setMem_params : (s.setMem m).params = s.params := rfl

end

section
variable (s : State) (a : Nat) (b : Byte)

@[simp] theorem State.storeByte_v : (s.storeByte a b).v = s.v := rfl
@[simp] theorem State.storeByte_i : (s.storeByte a b).i = s.i := rfl
@[simp] theorem State.storeByte_pc : (s.storeByte a b).pc = s.pc := rfl
@[simp] theorem State.storeByte_stack : (s.storeByte a b).stack = s.stack := rfl
@[simp] theorem State.storeByte_sp : (s.storeByte a b).sp = s.sp := rfl
@[simp] theorem State.storeByte_mem : (s.storeByte a b).mem = s.mem.write s.params.font a b := rfl
@[simp] theorem State.storeByte_disp : (s.storeByte a b).disp = s.disp := rfl
@[simp] theorem State.storeByte_dt : (s.storeByte a b).dt = s.dt := rfl
@[simp] theorem State.storeByte_st : (s.storeByte a b).st = s.st := rfl
@[simp] theorem State.storeByte_fault : (s.storeByte a b).fault = s.fault := rfl
@[simp] theorem State.storeByte_started : (s.storeByte a b).started = s.started := rfl
@[simp] theorem State.storeByte_events : (s.storeByte a b).events = s.events := rfl
@[simp] theorem State.storeByte_keys : (s.storeByte a b).keys = s.keys := rfl
@[simp] theorem State.storeByte_pending : (s.storeByte a b).pending = s.pending := rfl
@[simp] theorem State.storeByte_loadReplies : (s.storeByte a b).loadReplies = s.loadReplies := rfl
@[simp] theorem State.storeByte_draws : (s.storeByte a b).draws = s.draws := rfl
@[simp] theorem State.storeByte_params : (s.storeByte a b).params = s.params := rfl

end

section
variable (s : State) (a : Nat) (bytes : List Byte)

@[simp] theorem State.storeBytes_v : (s.storeBytes a bytes).v = s.v := rfl
@[simp] theorem State.storeBytes_i : (s.storeBytes a bytes).i = s.i := rfl
@[simp] theorem State.storeBytes_pc : (s.storeBytes a bytes).pc = s.pc := rfl
@[simp] theorem State.storeBytes_stack : (s.storeBytes a bytes).stack = s.stack := rfl
@[simp] theorem State.storeBytes_sp : (s.storeBytes a bytes).sp = s.sp := rfl
@[simp] theorem State.storeBytes_mem : (s.storeBytes a bytes).mem = s.mem.writeList s.params.font a bytes := rfl
@[simp] theorem State.storeBytes_disp : (s.storeBytes a bytes).disp = s.disp := rfl
@[simp] theorem State.storeBytes_dt : (s.storeBytes a bytes).dt = s.dt := rfl
@[simp] theorem State.storeBytes_st : (s.storeBytes a bytes).st = s.st := rfl
@[simp] theorem State.storeBytes_fault : (s.storeBytes a bytes).fault = s.fault := rfl
@[simp] theorem State.storeBytes_started : (s.storeBytes a bytes).started = s.started := rfl
@[simp] theorem State.storeBytes_events : (s.storeBytes a bytes).events = s.events := rfl
@[simp] theorem State.storeBytes_keys : (s.storeBytes a bytes).keys = s.keys := rfl
@[simp] theorem State.storeBytes_pending : (s.storeBytes a bytes).pending = s.pending := rfl
@[simp] theorem State.storeBytes_loadReplies : (s.storeBytes a bytes).loadReplies = s.loadReplies := rfl
@[simp] theorem State.storeBytes_draws : (s.storeBytes a bytes).draws = s.draws := rfl
@[simp] theorem State.storeBytes_params : (s.storeBytes a bytes).params = s.params := rfl

end

section
variable (s : State) (d : Display)

@[simp] theorem State.setDisp_v : (s.setDisp d).v = s.v := rfl
@[simp] theorem State.setDisp_i : (s.setDisp d).i = s.i := rfl
@[simp] theorem State.setDisp_pc : (s.setDisp d).pc = s.pc := rfl
@[simp] theorem State.setDisp_stack : (s.setDisp d).stack = s.stack := rfl
@[simp] theorem State.setDisp_sp : (s.setDisp d).sp = s.sp := rfl
@[simp] theorem State.setDisp_mem : (s.setDisp d).mem = s.mem := rfl
@[simp] theorem State.setDisp_disp : (s.setDisp d).disp = d := rfl
@[simp] theorem State.setDisp_dt : (s.setDisp d).dt = s.dt := rfl
@[simp] theorem State.setDisp_st : (s.setDisp d).st = s.st := rfl
@[simp] theorem State.setDisp_fault : (s.setDisp d).fault = s.fault := rfl
@[simp] theorem State.setDisp_started : (s.setDisp d).started = s.started := rfl
@[simp] theorem State.setDisp_events : (s.setDisp d).events = s.events := rfl
@[simp] theorem State.setDisp_keys : (s.setDisp d).keys = s.keys := rfl
@[simp] theorem State.setDisp_pending : (s.setDisp d).pending = s.pending := rfl
@[simp] theorem State.setDisp_loadReplies : (s.setDisp d).loadReplies = s.loadReplies := rfl
@[simp] theorem State.setDisp_draws : (s.setDisp d).draws = s.draws := rfl
@[simp] theorem State.setDisp_params : (s.setDisp d).params = s.params := rfl

end

section
variable (s : State) (r : LoadReply)

@[simp] theorem State.reply_v : (s.reply r).v = s.v := rfl
@[simp] theorem State.reply_i : (s.reply r).i = s.i := rfl
@[simp] theorem State.reply_pc : (s.reply r).pc = s.pc := rfl
@[simp] theorem State.reply_stack : (s.reply r).stack = s.stack := rfl
@[simp] theorem State.reply_sp : (s.reply r).sp = s.sp := rfl
@[simp] theorem State.reply_mem : (s.reply r).mem = s.mem := rfl
@[simp] theorem State.reply_disp : (s.reply r).disp = s.disp := rfl
@[simp] theorem State.reply_dt : (s.reply r).dt = s.dt := rfl
@[simp] theorem State.reply_st : (s.reply r).st = s.st := rfl
@[simp] theorem State.reply_fault : (s.reply r).fault = s.fault := rfl
@[simp] theorem State.reply_started : (s.reply r).started = s.started := rfl
@[simp] theorem State.reply_events : (s.reply r).events = s.events := rfl
@[simp] theorem State.reply_keys : (s.reply r).keys = s.keys := rfl
@[simp] theorem State.reply_pending : (s.reply r).pending = s.pending := rfl
@[simp] theorem State.reply_loadReplies : (s.reply r).loadReplies = s.loadReplies ++ [r] := rfl
@[simp] theorem State.reply_draws : (s.reply r).draws = s.draws := rfl
@[simp] theorem State.reply_params : (s.reply r).params = s.params := rfl

end

section
variable (s : State)

@[simp] theorem State.markStarted_v : s.markStarted.v = s.v := rfl
@[simp] theorem State.markStarted_i : s.markStarted.i = s.i := rfl
@[simp] theorem State.markStarted_pc : s.markStarted.pc = s.pc := rfl
@[simp] theorem State.markStarted_stack : s.markStarted.stack = s.stack := rfl
@[simp] theorem State.markStarted_sp : s.markStarted.sp = s.sp := rfl
@[simp] theorem State.markStarted_mem : s.markStarted.mem = s.mem := rfl
@[simp] theorem State.markStarted_disp : s.markStarted.disp = s.disp := rfl
@[simp] theorem State.markStarted_dt : s.markStarted.dt = s.dt := rfl
@[simp] theorem State.markStarted_st : s.markStarted.st = s.st := rfl
@[simp] theorem State.markStarted_fault : s.markStarted.fault = s.fault := rfl
@[simp] theorem State.markStarted_started : s.markStarted.started = true := rfl
@[simp] theorem State.markStarted_events : s.markStarted.events = s.events := rfl
@[simp] theorem State.markStarted_keys : s.markStarted.keys = s.keys := rfl
@[simp] theorem State.markStarted_pending : s.markStarted.pending = s.pending := rfl
@[simp] theorem State.markStarted_loadReplies : s.markStarted.loadReplies = s.loadReplies := rfl
@[simp] theorem State.markStarted_draws : s.markStarted.draws = s.draws := rfl
@[simp] theorem State.markStarted_params : s.markStarted.params = s.params := rfl

end

section
variable (s : State) (r : Raise) (w : Option Word)

@[simp] theorem State.takeFault_v : (s.takeFault r w).v = s.v := rfl
@[simp] theorem State.takeFault_i : (s.takeFault r w).i = s.i := rfl
@[simp] theorem State.takeFault_pc : (s.takeFault r w).pc = s.pc := rfl
@[simp] theorem State.takeFault_stack : (s.takeFault r w).stack = s.stack := rfl
@[simp] theorem State.takeFault_sp : (s.takeFault r w).sp = s.sp := rfl
@[simp] theorem State.takeFault_mem : (s.takeFault r w).mem = s.mem := rfl
@[simp] theorem State.takeFault_disp : (s.takeFault r w).disp = s.disp := rfl
@[simp] theorem State.takeFault_dt : (s.takeFault r w).dt = s.dt := rfl
@[simp] theorem State.takeFault_st : (s.takeFault r w).st = s.st := rfl
@[simp] theorem State.takeFault_fault : (s.takeFault r w).fault = some { kind := r.kind, instr := w, pc := s.pc, info := r.info } := rfl
@[simp] theorem State.takeFault_started : (s.takeFault r w).started = true := rfl
@[simp] theorem State.takeFault_events : (s.takeFault r w).events = s.events := rfl
@[simp] theorem State.takeFault_keys : (s.takeFault r w).keys = s.keys := rfl
@[simp] theorem State.takeFault_pending : (s.takeFault r w).pending = s.pending := rfl
@[simp] theorem State.takeFault_loadReplies : (s.takeFault r w).loadReplies = s.loadReplies := rfl
@[simp] theorem State.takeFault_draws : (s.takeFault r w).draws = s.draws := rfl
@[simp] theorem State.takeFault_params : (s.takeFault r w).params = s.params := rfl

end

/-! ## Registers seen through `reg` -/

/-- A register write changes its register to `v & 0xFF` and no other (R21). -/
@[simp] theorem State.reg_setV (s : State) (x y : Nib) (n : Nat) :
    (s.setV x n).reg y = if y = x then BitVec.ofNat 8 n else s.reg y := by
  simp only [State.reg, State.setV_v, Fin.getElem_fin, Vector.getElem_set, Fin.ext_iff, eq_comm]

@[simp] theorem State.reg_setVF (s : State) (f : Byte) (y : Nib) :
    (s.setVF f).reg y = if y = regVF then f else s.reg y := by
  simp [State.setVF]

@[simp] theorem State.reg_setI (s : State) (n : Nat) (y : Nib) : (s.setI n).reg y = s.reg y := rfl
@[simp] theorem State.reg_setPc (s : State) (n : Nat) (y : Nib) : (s.setPc n).reg y = s.reg y := rfl
@[simp] theorem State.reg_advance (s : State) (y : Nib) : s.advance.reg y = s.reg y := rfl
@[simp] theorem State.reg_skip (s : State) (y : Nib) : s.skip.reg y = s.reg y := rfl
@[simp] theorem State.reg_emit (s : State) (es : List DisplayEvent) (y : Nib) : (s.emit es).reg y = s.reg y := rfl
@[simp] theorem State.reg_countDraw (s : State) (y : Nib) : s.countDraw.reg y = s.reg y := rfl
@[simp] theorem State.reg_setDt (s : State) (b : Byte) (y : Nib) : (s.setDt b).reg y = s.reg y := rfl
@[simp] theorem State.reg_setSt (s : State) (b : Byte) (y : Nib) : (s.setSt b).reg y = s.reg y := rfl
@[simp] theorem State.reg_setMem (s : State) (m : Memory) (y : Nib) : (s.setMem m).reg y = s.reg y := rfl
@[simp] theorem State.reg_setDisp (s : State) (d : Display) (y : Nib) : (s.setDisp d).reg y = s.reg y := rfl
@[simp] theorem State.reg_reply (s : State) (r : LoadReply) (y : Nib) : (s.reply r).reg y = s.reg y := rfl
@[simp] theorem State.reg_markStarted (s : State) (y : Nib) : s.markStarted.reg y = s.reg y := rfl
@[simp] theorem State.reg_takeFault (s : State) (r : Raise) (w : Option Word) (y : Nib) :
    (s.takeFault r w).reg y = s.reg y := rfl

@[simp] theorem State.reg_storeByte (s : State) (a : Nat) (b : Byte) (y : Nib) : (s.storeByte a b).reg y = s.reg y := rfl
@[simp] theorem State.reg_storeBytes (s : State) (a : Nat) (bytes : List Byte) (y : Nib) :
    (s.storeBytes a bytes).reg y = s.reg y := rfl

/-- Two register files agree when they agree on every register. -/
theorem regs_ext (s t : State) (h : ∀ y, s.reg y = t.reg y) : s.v = t.v := by
  exact Vector.ext fun k hk => h ⟨k, hk⟩

/-! ## Memory seen through `byteAt` -/

/-- A byte read depends on the memory and the parameters only. -/
theorem State.byteAt_congr (s t : State) (hm : t.mem = s.mem) (hp : t.params = s.params) (c : Nat) : t.byteAt c = s.byteAt c := by
  simp only [State.byteAt, hm, hp]

@[simp] theorem State.byteAt_setMem (s : State) (m : Memory) (c : Nat) : (s.setMem m).byteAt c = m.read s.params.font c := rfl
@[simp] theorem State.byteAt_setV (s : State) (x : Nib) (n : Nat) (c : Nat) : (s.setV x n).byteAt c = s.byteAt c := rfl
@[simp] theorem State.byteAt_setVF (s : State) (f : Byte) (c : Nat) : (s.setVF f).byteAt c = s.byteAt c := rfl
@[simp] theorem State.byteAt_setI (s : State) (n : Nat) (c : Nat) : (s.setI n).byteAt c = s.byteAt c := rfl
@[simp] theorem State.byteAt_setPc (s : State) (n : Nat) (c : Nat) : (s.setPc n).byteAt c = s.byteAt c := rfl
@[simp] theorem State.byteAt_advance (s : State) (c : Nat) : s.advance.byteAt c = s.byteAt c := rfl
@[simp] theorem State.byteAt_skip (s : State) (c : Nat) : s.skip.byteAt c = s.byteAt c := rfl
@[simp] theorem State.byteAt_emit (s : State) (es : List DisplayEvent) (c : Nat) : (s.emit es).byteAt c = s.byteAt c := rfl
@[simp] theorem State.byteAt_countDraw (s : State) (c : Nat) : s.countDraw.byteAt c = s.byteAt c := rfl
@[simp] theorem State.byteAt_setDt (s : State) (b : Byte) (c : Nat) : (s.setDt b).byteAt c = s.byteAt c := rfl
@[simp] theorem State.byteAt_setSt (s : State) (b : Byte) (c : Nat) : (s.setSt b).byteAt c = s.byteAt c := rfl
@[simp] theorem State.byteAt_setDisp (s : State) (d : Display) (c : Nat) : (s.setDisp d).byteAt c = s.byteAt c := rfl
@[simp] theorem State.byteAt_reply (s : State) (r : LoadReply) (c : Nat) : (s.reply r).byteAt c = s.byteAt c := rfl
@[simp] theorem State.byteAt_markStarted (s : State) (c : Nat) : s.markStarted.byteAt c = s.byteAt c := rfl
@[simp] theorem State.byteAt_takeFault (s : State) (r : Raise) (w : Option Word) (c : Nat) : (s.takeFault r w).byteAt c = s.byteAt c := rfl

end Sys2Proof.Machine
end

