-- ==== Sys2Proof/Laws/Ops.lean ====
section
/-! SUPPORT. What each shared operation of Machine/Ops.lean and Machine/Operands.lean can do, said once. -/

namespace Sys2Proof.Machine

/-! ## Numbers -/

/-- The subtraction of 42_alu R160 stored in a byte is subtraction modulo 256. -/
@[simp] theorem ofNat_wrappedDifference (a b : Byte) : BitVec.ofNat 8 (wrappedDifference a b) = a - b := by
  apply BitVec.eq_of_toNat_eq
  have ha := a.isLt
  have hb := b.isLt
  simp only [wrappedDifference, BitVec.toNat_ofNat, BitVec.toNat_sub]
  omega

@[simp] theorem ofNat_add_toNat {w : Nat} (a b : BitVec w) : BitVec.ofNat w (a.toNat + b.toNat) = a + b := by
  apply BitVec.eq_of_toNat_eq
  simp

theorem ofNat_toNat_add_lit {w : Nat} (a : BitVec w) (n : Nat) : BitVec.ofNat w (a.toNat + n) = a + BitVec.ofNat w n := by
  apply BitVec.eq_of_toNat_eq
  simp

/-! ## Memory accesses -/

/-- A read after a store of one byte (20_memory R54, R60). -/
@[simp] theorem State.byteAt_storeByte (s : State) (a : Nat) (b : Byte) (c : Nat) :
    (s.storeByte a b).byteAt c = if c = a then b else s.byteAt c :=
  Memory.read_write s.params.font s.mem a b c

/-- A read after a store of a run of bytes. -/
theorem State.byteAt_storeBytes (s : State) (a : Nat) (bytes : List Byte) (c : Nat) :
    (s.storeBytes a bytes).byteAt c = if a ≤ c ∧ c < a + bytes.length then bytes.getD (c - a) 0 else s.byteAt c :=
  Memory.read_writeList s.params.font bytes s.mem a c

theorem State.memRead_ok (s : State) (a : Nat) (h : a ≤ 0xFFF) : s.memRead a = .ok (s.byteAt a) := by
  simp [State.memRead, Nat.not_lt.mpr h]

theorem State.memRead_error (s : State) (a : Nat) (h : 0xFFF < a) :
    s.memRead a = .error ⟨.addressOutOfRange, some (.addr a)⟩ := by
  simp [State.memRead, h]

/-- Reading inside the address space: the bytes, lowest address first. -/
theorem State.readBytes_ok (n : Nat) (s : State) (a : Nat) (h : a + n ≤ 0x1000) :
    s.readBytes a n = .ok ((List.range n).map fun k => s.byteAt (a + k)) := by
  induction n generalizing a with
  | zero => rfl
  | succ n ih =>
    simp only [State.readBytes, s.memRead_ok a (by omega), ih (a + 1) (by omega)]
    simp [List.range_succ_eq_map, Nat.add_assoc, Nat.add_comm 1]

/-- Reading across the end of the address space: the first address past it is reported. -/
theorem State.readBytes_error (n : Nat) (s : State) (a : Nat) (ha : a ≤ 0x1000) (h : 0x1000 < a + n) :
    s.readBytes a n = .error ⟨.addressOutOfRange, some (.addr 0x1000)⟩ := by
  induction n generalizing a with
  | zero => omega
  | succ n ih =>
    by_cases h0 : a = 0x1000
    · subst h0
      simp only [State.readBytes, s.memRead_error 0x1000 (by omega)]
    · simp only [State.readBytes, s.memRead_ok a (by omega), ih (a + 1) (by omega) (by omega)]

theorem State.memWrite_ok (s : State) (a : Nat) (b : Byte) (ha : a ≤ 0xFFF)
    (hf : s.params.fontWrite = .write ∨ 0x4F < a) : s.memWrite a b = .ok (s.storeByte a b) := by
  have : ¬ (a ≤ 0x4F ∧ s.params.fontWrite = .fault) := by
    rintro ⟨h1, h2⟩
    rcases hf with h | h
    · simp [h] at h2
    · omega
  simp [State.memWrite, Nat.not_lt.mpr ha, this]

theorem State.memWrite_range (s : State) (a : Nat) (b : Byte) (ha : 0xFFF < a) :
    s.memWrite a b = .error ⟨.addressOutOfRange, some (.addr a)⟩ := by
  simp [State.memWrite, ha]

theorem State.memWrite_font (s : State) (a : Nat) (b : Byte) (ha : a ≤ 0x4F) (hf : s.params.fontWrite = .fault) :
    s.memWrite a b = .error ⟨.fontRegionWrite, some (.addr a)⟩ := by
  simp [State.memWrite, ha, hf, show ¬ 4095 < a by omega]

/-- Writing where every byte may be written: the bytes are stored and nothing else changes. -/
theorem State.writeBytes_ok (bytes : List Byte) (s : State) (a : Nat) (h : a + bytes.length ≤ 0x1000)
    (hf : s.params.fontWrite = .write ∨ 0x4F < a) :
    s.writeBytes a bytes = .ok (s.storeBytes a bytes) := by
  induction bytes generalizing s a with
  | nil => rfl
  | cons b rest ih =>
    simp only [List.length_cons] at h
    simp only [State.writeBytes, s.memWrite_ok a b (by omega) hf]
    exact ih (s.storeByte a b) (a + 1) (by omega) (hf.imp_right (by omega))

/-- Writing from inside the font region under `P_FONT_WRITE = fault`: the first address is reported. -/
theorem State.writeBytes_font (s : State) (a : Nat) (bytes : List Byte) (hb : bytes ≠ []) (ha : a ≤ 0x4F)
    (hf : s.params.fontWrite = .fault) :
    s.writeBytes a bytes = .error ⟨.fontRegionWrite, some (.addr a)⟩ := by
  cases bytes with
  | nil => exact absurd rfl hb
  | cons b rest => simp only [State.writeBytes, s.memWrite_font a b ha hf]

/-- Writing across the end of the address space: the first address past it is reported. -/
theorem State.writeBytes_range (bytes : List Byte) (s : State) (a : Nat) (ha : a ≤ 0x1000)
    (h : 0x1000 < a + bytes.length) (hf : s.params.fontWrite = .write ∨ 0x4F < a) :
    s.writeBytes a bytes = .error ⟨.addressOutOfRange, some (.addr 0x1000)⟩ := by
  induction bytes generalizing s a with
  | nil => simp at h; omega
  | cons b rest ih =>
    simp only [List.length_cons] at h
    by_cases h0 : a = 0x1000
    · subst h0
      simp only [State.writeBytes, s.memWrite_range 0x1000 b (by omega)]
    · simp only [State.writeBytes, s.memWrite_ok a b (by omega) hf]
      exact ih (s.storeByte a b) (a + 1) (by omega) (by omega) (hf.imp_right (by omega))

/-- Everything a run of writes can do: store all its bytes, all of them where they may be stored; or raise one of the two
faults of 20_memory R54. -/
theorem State.writeBytes_cases (s : State) (a : Nat) (bytes : List Byte) (ha : a ≤ 0x1000) (hb : bytes ≠ []) :
    (a + bytes.length ≤ 0x1000 ∧ (s.params.fontWrite = .write ∨ 0x4F < a) ∧
      s.writeBytes a bytes = .ok (s.storeBytes a bytes)) ∨
    (a ≤ 0x4F ∧ s.params.fontWrite = .fault ∧ s.writeBytes a bytes = .error ⟨.fontRegionWrite, some (.addr a)⟩) ∨
    (0x1000 < a + bytes.length ∧ (s.params.fontWrite = .write ∨ 0x4F < a) ∧
      s.writeBytes a bytes = .error ⟨.addressOutOfRange, some (.addr 0x1000)⟩) := by
  by_cases hf : s.params.fontWrite = .write ∨ 0x4F < a
  · by_cases h : a + bytes.length ≤ 0x1000
    · exact .inl ⟨h, hf, s.writeBytes_ok bytes a h hf⟩
    · exact .inr (.inr ⟨by omega, hf, s.writeBytes_range bytes a ha (by omega) hf⟩)
  · have h1 : s.params.fontWrite = .fault := by
      cases h : s.params.fontWrite with
      | fault => rfl
      | write => exact absurd (.inl h) hf
    have h2 : a ≤ 0x4F := by
      by_contra h
      exact hf (.inr (by omega))
    exact .inr (.inl ⟨h2, h1, s.writeBytes_font a bytes hb h2 h1⟩)

/-- Everything a run of reads can do. -/
theorem State.readBytes_cases (s : State) (a n : Nat) (ha : a ≤ 0x1000) :
    (a + n ≤ 0x1000 ∧ s.readBytes a n = .ok ((List.range n).map fun k => s.byteAt (a + k))) ∨
    (0x1000 < a + n ∧ s.readBytes a n = .error ⟨.addressOutOfRange, some (.addr 0x1000)⟩) := by
  by_cases h : a + n ≤ 0x1000
  · exact .inl ⟨h, s.readBytes_ok n a h⟩
  · exact .inr ⟨by omega, s.readBytes_error n a ha (by omega)⟩

/-- A word inside the address space, big-endian (20_memory R55, R58). -/
theorem State.readWord16_ok (s : State) (a : Nat) (h : a + 1 ≤ 0xFFF) :
    s.readWord16 a = .ok (s.byteAt a ++ s.byteAt (a + 1)) := by
  simp only [State.readWord16, s.memRead_ok a (by omega), s.memRead_ok (a + 1) h]

theorem State.readWord16_end (s : State) : s.readWord16 0xFFF = .error ⟨.addressOutOfRange, some (.addr 0x1000)⟩ := by
  simp only [State.readWord16, s.memRead_ok 0xFFF (by omega), s.memRead_error (0xFFF + 1) (by omega)]

theorem State.dataAddr_zero_le (s : State) : s.dataAddr 0 ≤ 0x1000 := by
  have := s.i.isLt
  simp only [State.dataAddr]
  omega

/-! ## Registers moved in runs -/

@[simp] theorem State.length_regsUpTo (s : State) (x : Nib) : (s.regsUpTo x).length = x.val + 1 := by
  have := x.isLt
  simp only [State.regsUpTo, List.length_take, Vector.length_toList]
  omega

theorem State.getD_regsUpTo (s : State) (x k : Nib) (h : k ≤ x) : (s.regsUpTo x).getD k.val 0 = s.reg k := by
  have hk := k.isLt
  have h' : k.val ≤ x.val := h
  simp [State.regsUpTo, State.reg, List.getD_eq_getElem?_getD, show k.val < x.val + 1 by omega]

/-- Loading a run of registers (43_index_memory R195): those registers, and nothing else. -/
theorem State.reg_setRegsFrom (bytes : List Byte) (s : State) (a : Nat) (h : a + bytes.length ≤ 16) (y : Nib) :
    (s.setRegsFrom a bytes).reg y =
      if a ≤ y.val ∧ y.val < a + bytes.length then bytes.getD (y.val - a) 0 else s.reg y := by
  induction bytes generalizing s a with
  | nil => simp only [State.setRegsFrom, List.length_nil, Nat.add_zero]; rw [if_neg (by omega)]
  | cons b rest ih =>
    simp only [List.length_cons] at h
    have ha : a < 16 := by omega
    simp only [State.setRegsFrom, ha, dif_pos, List.length_cons]
    rw [ih _ _ (by omega), State.reg_setV]
    by_cases h0 : y = ⟨a, ha⟩
    · subst h0
      simp
    · have h0' : y.val ≠ a := fun h => h0 (Fin.ext h)
      by_cases h1 : a + 1 ≤ y.val ∧ y.val < a + 1 + rest.length
      · rw [if_pos h1, if_pos (by omega), show y.val - a = (y.val - (a + 1)) + 1 by omega]
        simp
      · rw [if_neg h1, if_neg h0, if_neg (by omega)]

theorem State.setRegsFrom_frame (bytes : List Byte) (s : State) (a : Nat) :
    s.setRegsFrom a bytes = { s with v := (s.setRegsFrom a bytes).v } := by
  induction bytes generalizing s a with
  | nil => rfl
  | cons b rest ih =>
    by_cases ha : a < 16
    · simp only [State.setRegsFrom, ha, dif_pos]
      rw [ih]
      rfl
    · simp only [State.setRegsFrom, ha, dif_neg, not_false_eq_true]

/-! ## Stack -/

theorem State.push_some (s : State) (val : Nat) (h : s.sp.val < Config.stackDepth) :
    s.push val = some { s with stack := s.stack.set s.sp.val (BitVec.ofNat 12 val), sp := ⟨s.sp.val + 1, Nat.succ_lt_succ h⟩ } := by
  simp only [State.push, h, dif_pos]

theorem State.push_none (s : State) (val : Nat) (h : ¬ s.sp.val < Config.stackDepth) : s.push val = none := by
  simp only [State.push, h, dif_neg, not_false_eq_true]

theorem State.pop_none (s : State) (h : s.sp.val = 0) : s.pop = none := by
  have : s.sp = ⟨0, Nat.succ_pos _⟩ := Fin.ext h
  rw [State.pop, this]

theorem State.pop_some (s : State) (n : Nat) (hn : n < Config.stackDepth) (h : s.sp.val = n + 1) :
    s.pop = some (s.stack[n], { s with sp := ⟨n, Nat.lt_succ_of_lt hn⟩ }) := by
  have : s.sp = ⟨n + 1, Nat.succ_lt_succ hn⟩ := Fin.ext h
  rw [State.pop, this]

/-! ## The end of a handler -/

/-- Everything the end of a handler can answer (40_cycle R115 to R117): it never stops outside the machine. -/
theorem complete_cases (w : Word) (s t : State) (h : Handled) (ht : complete w s h = .next t) :
    (∃ u, h = .advance u ∧ t = u.advance) ∨ h = .noAdvance t ∨ (∃ r, h = .raised r ∧ t = s.takeFault r (some w)) := by
  cases h with
  | advance u => exact .inl ⟨u, rfl, by simpa [complete] using ht.symm⟩
  | noAdvance u => exact .inr (.inl (by simpa [complete] using ht))
  | raised r => exact .inr (.inr ⟨r, rfl, by simpa [complete] using ht.symm⟩)

/-- The end of a handler is always a next state. -/
theorem complete_next (w : Word) (s : State) (h : Handled) : ∃ t, complete w s h = .next t := by
  cases h with
  | advance u => exact ⟨_, rfl⟩
  | noAdvance u => exact ⟨_, rfl⟩
  | raised r => exact ⟨_, rfl⟩

theorem complete_skipIf (w : Word) (s : State) (b : Bool) :
    complete w s (skipIf b s) = .next { s with pc := if b then s.pc + 4 else s.pc + 2 } := by
  cases b
  · simp only [skipIf, complete, State.advance, State.setPc, ofNat_toNat_add_lit]; rfl
  · simp only [skipIf, complete, State.skip, State.setPc, ofNat_toNat_add_lit]; rfl

theorem State.advance_eq (s : State) : s.advance = { s with pc := s.pc + 2 } := by
  simp only [State.advance, State.setPc, ofNat_toNat_add_lit]
  rfl

/-! ## Keys -/

theorem mem_pressedKeys (keys : BitVec 16) (k : Nib) : k ∈ pressedKeys keys ↔ keyPressed keys k = true := by
  simp [pressedKeys]

/-- The chosen key is one of the pressed keys (45_timers_keys R234). -/
theorem chooseKey_mem (c : Nat) (first : Nib) (others : List Nib) : chooseKey c first others ∈ first :: others := by
  induction others generalizing c first with
  | nil => simp [chooseKey]
  | cons k rest ih =>
    cases c with
    | zero => simp [chooseKey]
    | succ c => exact List.mem_cons_of_mem _ (ih c k)

/-- Every pressed key is some draw's choice: the free value leaves nothing out. -/
theorem chooseKey_reaches (first : Nib) (others : List Nib) (k : Nib) (h : k ∈ first :: others) :
    ∃ c, chooseKey c first others = k := by
  induction others generalizing first with
  | nil => exact ⟨0, by simpa [chooseKey, eq_comm] using h⟩
  | cons j rest ih =>
    rcases List.mem_cons.mp h with rfl | h
    · exact ⟨0, rfl⟩
    · obtain ⟨c, hc⟩ := ih j h
      exact ⟨c + 1, hc⟩

/-! ## Display -/

@[simp] theorem Display.cell_blank (c : Fin 64 × Fin 32) : Display.blank.cell c = false := by
  simp [Display.blank, Display.cell]

@[simp] theorem Display.cell_setCell (d : Display) (c e : Fin 64 × Fin 32) (b : Bool) :
    (d.setCell c b).cell e = if e = c then b else d.cell e := by
  obtain ⟨cx, cy⟩ := c
  obtain ⟨ex, ey⟩ := e
  simp only [Display.cell, Display.setCell, Fin.getElem_fin, Vector.getElem_set, Prod.mk.injEq, Fin.ext_iff]
  by_cases hx : cx.val = ex.val
  · by_cases hy : cy.val = ey.val
    · simp [hx, hy]
    · simp [hx, hy, Ne.symm hy]
  · simp [hx, Ne.symm hx]

/-- Two buffers agree when they agree on every cell. -/
theorem Display.ext_cell (d e : Display) (h : ∀ c, d.cell c = e.cell c) : d = e :=
  Vector.ext fun i hi => Vector.ext fun j hj => h (⟨i, hi⟩, ⟨j, hj⟩)

end Sys2Proof.Machine
end

