-- ==== Sys2Proof/Laws/Cycle.lean ====
section
/-! SUPPORT. What one `Step` and one machine step can be, said once (spec/40_cycle.md R111 to R117). -/

namespace Sys2Proof.Machine

theorem fetch_ok (s : State) (h : s.pc.toNat ≠ 0xFFF) :
    s.fetch = .ok (s.byteAt s.pc.toNat ++ s.byteAt (s.pc.toNat + 1)) := by
  have := s.pc.isLt
  exact s.readWord16_ok s.pc.toNat (by omega)

theorem fetch_end (s : State) (h : s.pc.toNat = 0xFFF) :
    s.fetch = .error ⟨.addressOutOfRange, some (.addr 0x1000)⟩ := by
  rw [State.fetch, h]
  exact s.readWord16_end

theorem runStep_halted (s : State) (h : s.fault ≠ none) : runStep s = .next s := by
  have : s.halted = true := Option.isSome_iff_ne_none.mpr h
  simp [runStep, this]

theorem runStep_running (s : State) (h : s.fault = none) (hpc : s.pc.toNat ≠ 0xFFF) :
    runStep s = runWord (s.byteAt s.pc.toNat ++ s.byteAt (s.pc.toNat + 1)) s.markStarted := by
  have : s.halted = false := by simp [State.halted, h]
  simp [runStep, this, fetch_ok s.markStarted hpc]

theorem runStep_fetch_fault (s : State) (h : s.fault = none) (hpc : s.pc.toNat = 0xFFF) :
    runStep s = .next (s.markStarted.takeFault ⟨.addressOutOfRange, some (.addr 0x1000)⟩ none) := by
  have : s.halted = false := by simp [State.halted, h]
  simp [runStep, this, fetch_end s.markStarted hpc]

theorem runWord_ok (w : Word) (s : State) (i : Instr) (h : decode s.params.timerKeyOps w = .ok i) : runWord w s = exec i s := by
  simp only [runWord, h]

theorem runWord_unknown (w : Word) (s : State) (e : DecodeError) (h : decode s.params.timerKeyOps w = .error e) :
    runWord w s = .next (s.takeFault ⟨.unknownOpcode, none⟩ (some w)) := by
  simp only [runWord, h]

/-- Everything one `Step` can be: nothing (halted), a fault of the fetch, an unknown opcode, or the decoded instruction run in
the state with `started` set. -/
theorem runStep_cases (s : State) :
    (s.fault ≠ none ∧ runStep s = .next s) ∨
    (s.fault = none ∧ s.pc.toNat = 0xFFF ∧
      runStep s = .next (s.markStarted.takeFault ⟨.addressOutOfRange, some (.addr 0x1000)⟩ none)) ∨
    (s.fault = none ∧ s.pc.toNat ≠ 0xFFF ∧ ∃ e,
      decode s.params.timerKeyOps (s.byteAt s.pc.toNat ++ s.byteAt (s.pc.toNat + 1)) = .error e ∧
      runStep s = .next (s.markStarted.takeFault ⟨.unknownOpcode, none⟩
        (some (s.byteAt s.pc.toNat ++ s.byteAt (s.pc.toNat + 1))))) ∨
    (s.fault = none ∧ s.pc.toNat ≠ 0xFFF ∧ ∃ i,
      decode s.params.timerKeyOps (s.byteAt s.pc.toNat ++ s.byteAt (s.pc.toNat + 1)) = .ok i ∧
      runStep s = exec i s.markStarted) := by
  by_cases hf : s.fault = none
  · by_cases hpc : s.pc.toNat = 0xFFF
    · exact .inr (.inl ⟨hf, hpc, runStep_fetch_fault s hf hpc⟩)
    · cases hd : decode s.params.timerKeyOps (s.byteAt s.pc.toNat ++ s.byteAt (s.pc.toNat + 1)) with
      | ok i =>
        exact .inr (.inr (.inr ⟨hf, hpc, i, rfl, by rw [runStep_running s hf hpc]; exact runWord_ok _ _ i hd⟩))
      | error e =>
        exact .inr (.inr (.inl ⟨hf, hpc, e, rfl, by rw [runStep_running s hf hpc]; exact runWord_unknown _ _ e hd⟩))
  · exact .inl ⟨hf, runStep_halted s hf⟩

/-- Everything one machine step can be: the host's next operation, `Step` when none is pending. -/
theorem step_cases (s : State) :
    (s.pending = [] ∧ step s = runStep s) ∨
    (∃ bytes rest, s.pending = .loadProgram bytes :: rest ∧ step s = .next ({ s with pending := rest }.loadProgram bytes)) ∨
    (∃ rest, s.pending = .timerTick :: rest ∧ step s = .next { s with pending := rest }.timerTick) ∨
    (∃ keys rest, s.pending = .step keys :: rest ∧ s.fault ≠ none ∧ step s = .next { s with pending := rest }) ∨
    (∃ keys rest, s.pending = .step keys :: rest ∧ s.fault = none ∧
      step s = runStep { s with pending := rest, keys := keys }) := by
  cases hp : s.pending with
  | nil => exact .inl ⟨rfl, by simp only [step, performNext, hp]⟩
  | cons op rest =>
    cases op with
    | loadProgram bytes => exact .inr (.inl ⟨bytes, rest, rfl, by simp only [step, performNext, hp, performOp]⟩)
    | timerTick => exact .inr (.inr (.inl ⟨rest, rfl, by simp only [step, performNext, hp, performOp]⟩))
    | step keys =>
      by_cases hf : s.fault = none
      · refine .inr (.inr (.inr (.inr ⟨keys, rest, rfl, hf, ?_⟩)))
        simp [step, performNext, hp, performOp, stepWithKeys, State.halted, hf]
      · refine .inr (.inr (.inr (.inl ⟨keys, rest, rfl, hf, ?_⟩)))
        have : s.fault.isSome = true := Option.isSome_iff_ne_none.mpr hf
        simp [step, performNext, hp, performOp, stepWithKeys, State.halted, this]

/-! ## The host's operations -/

@[simp] theorem loadProgram_refused (s : State) (bytes : List Byte) (h : s.started = true ∨ Config.maxProgram < bytes.length) :
    s.loadProgram bytes = s.reply .refused := by
  simp only [State.loadProgram, gt_iff_lt, h, if_true]

theorem loadProgram_accepted (s : State) (bytes : List Byte) (h : s.started = false) (hl : bytes.length ≤ Config.maxProgram) :
    s.loadProgram bytes = (s.storeBytes Config.loadAddr bytes).reply .accepted := by
  simp only [State.loadProgram, h, Bool.false_eq_true, false_or, gt_iff_lt, Nat.not_lt.mpr hl, if_false]

/-- `TimerTick` touches the two timers at most. -/
theorem timerTick_frame (s : State) : s.timerTick = { s with dt := s.timerTick.dt, st := s.timerTick.st } := by
  unfold State.timerTick
  split
  · rfl
  · split <;> rfl

/-! ## Placing a word -/

/-- The placed word is what the next step fetches. -/
theorem fetch_placeWord (s : State) (w : Word) (h : s.pc.toNat ≠ 0xFFF) : (s.placeWord w).fetch = .ok w := by
  rw [fetch_ok _ (by exact h)]
  have h1 : (s.placeWord w).pc = s.pc := rfl
  have h2 : ∀ a, (s.placeWord w).byteAt a = (s.storeBytes s.pc.toNat [highByte w, lowByte w]).byteAt a := by
    intro a
    simp only [State.placeWord, h, if_false]
    rfl
  rw [h1, h2, h2]
  simp only [State.byteAt_storeBytes, List.length_cons, List.length_nil]
  rw [if_pos (by omega), if_pos (by omega), Nat.sub_self, Nat.add_sub_cancel_left]
  exact congrArg Except.ok (wordOfBytes_highByte_lowByte w)

/-- A machine with a placed word runs it next. -/
theorem step_withFetchWord (s : State) (nbits w : Nat) (h : s.pc.toNat ≠ 0xFFF) :
    step (s.withFetchWord nbits w) = runWord (tableWord nbits w) (s.withFetchWord nbits w).markStarted := by
  have hp : (s.withFetchWord nbits w).pending = [] := rfl
  have hf : (s.withFetchWord nbits w).fault = none := rfl
  have hw : (s.withFetchWord nbits w).markStarted.fetch = .ok (tableWord nbits w) :=
    fetch_placeWord s (tableWord nbits w) h
  simp only [step, performNext, hp, runStep, State.halted, hf, Option.isSome_none, Bool.false_eq_true, if_false, hw]

end Sys2Proof.Machine
end

