-- ==== Sys2Proof/Laws/Drawing.lean ====
section
/-! SUPPORT. What the sprite compositor produces (spec/44_display.md R210, R212), for cells without a repeat; and the cells of a
sprite: which they are, and that none repeats. -/

namespace Sys2Proof.Machine

theorem flipCells_disp (cells : List (Fin 64 × Fin 32)) (d : Drawing) (h : cells.Nodup) (c : Fin 64 × Fin 32) :
    (cells.foldl flipCell d).disp.cell c = if c ∈ cells then !d.disp.cell c else d.disp.cell c := by
  induction cells generalizing d with
  | nil => simp
  | cons e rest ih =>
    obtain ⟨he, hr⟩ := List.nodup_cons.mp h
    rw [List.foldl_cons, ih _ hr]
    simp only [flipCell, Display.cell_setCell, List.mem_cons]
    by_cases hc : c = e
    · subst hc; simp [he]
    · simp [hc]

theorem flipCells_collided (cells : List (Fin 64 × Fin 32)) (d : Drawing) (h : cells.Nodup) :
    (cells.foldl flipCell d).collided = (d.collided || cells.any d.disp.cell) := by
  induction cells generalizing d with
  | nil => simp
  | cons e rest ih =>
    obtain ⟨he, hr⟩ := List.nodup_cons.mp h
    rw [List.foldl_cons, ih _ hr]
    have : rest.any (flipCell d e).disp.cell = rest.any d.disp.cell := by
      rw [Bool.eq_iff_iff, List.any_eq_true, List.any_eq_true]
      refine exists_congr fun c => and_congr_right fun hc => ?_
      have : c ≠ e := fun h => he (h ▸ hc)
      simp [flipCell, this]
    rw [this, List.any_cons]
    simp [flipCell, Bool.or_assoc]

theorem flipCells_events (cells : List (Fin 64 × Fin 32)) (d : Drawing) (h : cells.Nodup) :
    (cells.foldl flipCell d).events =
      d.events ++ cells.map fun c => DisplayEvent.setCell c.1 c.2 (!d.disp.cell c) := by
  induction cells generalizing d with
  | nil => simp
  | cons e rest ih =>
    obtain ⟨he, hr⟩ := List.nodup_cons.mp h
    rw [List.foldl_cons, ih _ hr]
    have : (rest.map fun c => DisplayEvent.setCell c.1 c.2 (!(flipCell d e).disp.cell c)) =
        rest.map fun c => DisplayEvent.setCell c.1 c.2 (!d.disp.cell c) := by
      refine List.map_congr_left ?_
      intro c hc
      have : c ≠ e := fun h => he (h ▸ hc)
      simp [flipCell, this]
    rw [this]
    simp [flipCell]

theorem mem_rowCells (ox cy : Nat) (row : Byte) (c : Fin 64 × Fin 32) :
    c ∈ rowCells ox cy row ↔ ∃ b, b < 8 ∧ row.getLsbD (7 - b) = true ∧ c = wrapCell (ox + b) cy := by
  simp only [rowCells, List.mem_map, List.mem_filter]
  constructor
  · rintro ⟨b, ⟨hb, hr⟩, rfl⟩
    refine ⟨b, ?_, hr, rfl⟩
    simp only [List.mem_cons, List.not_mem_nil, or_false] at hb
    omega
  · rintro ⟨b, hb, hr, rfl⟩
    refine ⟨b, ⟨?_, hr⟩, rfl⟩
    simp only [List.mem_cons, List.not_mem_nil, or_false]
    omega

theorem mem_spriteCells (rows : List Byte) (ox oy : Nat) (c : Fin 64 × Fin 32) :
    c ∈ spriteCells ox oy rows ↔
      ∃ r, r < rows.length ∧ ∃ b, b < 8 ∧ (rows.getD r 0).getLsbD (7 - b) = true ∧ c = wrapCell (ox + b) (oy + r) := by
  induction rows generalizing oy with
  | nil => simp [spriteCells]
  | cons row rest ih =>
    simp only [spriteCells, List.mem_append, mem_rowCells, ih, List.length_cons]
    constructor
    · rintro (⟨b, hb, hr, rfl⟩ | ⟨r, hr, b, hb, hbit, rfl⟩)
      · exact ⟨0, by omega, b, hb, by simpa using hr, rfl⟩
      · exact ⟨r + 1, by omega, b, hb, by simpa using hbit, by rw [Nat.add_assoc, Nat.add_comm 1]⟩
    · rintro ⟨r, hr, b, hb, hbit, rfl⟩
      cases r with
      | zero => exact .inl ⟨b, hb, by simpa using hbit, rfl⟩
      | succ r => exact .inr ⟨r, by omega, b, hb, by simpa using hbit, by rw [Nat.add_assoc, Nat.add_comm 1]⟩

theorem rowCells_nodup (ox cy : Nat) (row : Byte) : (rowCells ox cy row).Nodup := by
  refine List.Nodup.map_on ?_ (List.Nodup.filter _ (by decide))
  intro a ha b hb hab
  have ha := (List.mem_filter.mp ha).1
  have hb := (List.mem_filter.mp hb).1
  simp only [List.mem_cons, List.not_mem_nil, or_false] at ha hb
  have h : (ox + a) % 64 = (ox + b) % 64 := congrArg (fun c => c.1.val) hab
  omega

/-- No cell is touched twice by one draw (R210): a sprite is at most 8 columns wide and 32 rows tall. -/
theorem spriteCells_nodup (rows : List Byte) (ox oy : Nat) (h : rows.length ≤ 32) : (spriteCells ox oy rows).Nodup := by
  induction rows generalizing oy with
  | nil => simp [spriteCells]
  | cons row rest ih =>
    simp only [List.length_cons] at h
    refine List.Nodup.append (rowCells_nodup _ _ _) (ih _ (by omega)) ?_
    intro c h1 h2
    obtain ⟨b, _, _, rfl⟩ := (mem_rowCells _ _ _ _).mp h1
    obtain ⟨r, hr, b', _, _, hc⟩ := (mem_spriteCells _ _ _ _).mp h2
    have : oy % 32 = (oy + 1 + r) % 32 := congrArg (fun c => c.2.val) hc
    omega

end Sys2Proof.Machine
end

