-- ==== Sys2Proof/Laws/Exec.lean ====
section
/-! SUPPORT. Everything an instruction can do, said once (`exec_effect`), and from it what a machine step can do to a property of
two states (`step_induction`), so that an invariant needs no look into the meanings. -/

namespace Sys2Proof.Machine

theorem State.dataAddr_zero (s : State) : s.dataAddr 0 = s.i.toNat := rfl

theorem complete_advance (w : Word) (s u : State) : complete w s (.advance u) = .next { u with pc := u.pc + 2 } := by
  simp only [complete, State.advance_eq]

theorem keyIndex_ok (v : Byte) (h : v.toNat < 16) : keyIndex v = .ok ⟨v.toNat, h⟩ := by
  simp only [keyIndex, h, dif_pos]

theorem keyIndex_error (v : Byte) (h : ¬ v.toNat < 16) : keyIndex v = .error ⟨.keyIndexOutOfRange, some (.value v)⟩ := by
  simp only [keyIndex, h, dif_neg, not_false_eq_true]

/-- A write to another register leaves VF alone. -/
theorem State.setV_vf (s : State) (x : Nib) (hx : x ≠ 15) (b : Nat) : (s.setV x b).v[15] = s.v[15] := by
  have h := State.reg_setV s x 15 b
  rw [if_neg (Ne.symm hx)] at h
  exact h

/-- Which faults an instruction can raise, and when (60_exceptions R250, R253). -/
inductive CanRaise (s : State) : Instr → FaultKind → Option FaultInfo → Prop
  | overflow (nnn) : CanRaise s (.call nnn) .stackOverflow none
  | underflow : CanRaise s .ret .stackUnderflow none
  | sys (nnn) (h : s.params.sysPolicy = .fault) : CanRaise s (.sys nnn) .sysUnsupported none
  | range (i) (h : (∃ x y n, i = .drw x y n) ∨ (∃ x, i = .ldB x ∨ i = .ldMemVx x ∨ i = .ldVxMem x)) :
      CanRaise s i .addressOutOfRange (some (.addr 0x1000))
  | font (i a) (h : ∃ x, i = .ldB x ∨ i = .ldMemVx x) (ha : a ≤ 0x4F) (hf : s.params.fontWrite = .fault) :
      CanRaise s i .fontRegionWrite (some (.addr a))
  | key (i v) (h : ∃ x, i = .skp x ∨ i = .sknp x) (hv : ¬ v.toNat < 16) :
      CanRaise s i .keyIndexOutOfRange (some (.value v))

/-- What an instruction can do to a state. Every arm names all that changes. -/
inductive Effect (s : State) : Instr → State → Prop
  | fault (i k info) (h : CanRaise s i k info) :
      Effect s i { s with started := true, fault := some ⟨k, some (encode i), s.pc, info⟩ }
  | sys (nnn) : Effect s (.sys nnn) { s with pc := s.pc + 2 }
  | jp (nnn) : Effect s (.jp nnn) { s with pc := nnn }
  | jpV0 (nnn) : Effect s (.jpV0 nnn) { s with pc := BitVec.ofNat 12 (nnn.toNat + (s.reg 0).toNat) }
  | call (nnn) (h : s.sp.val < Config.stackDepth) : Effect s (.call nnn)
      { s with pc := nnn, stack := s.stack.set s.sp.val (s.pc + 2), sp := ⟨s.sp.val + 1, Nat.succ_lt_succ h⟩ }
  | ret (k : Nat) (h : k < Config.stackDepth) (hk : s.sp.val = k + 1) :
      Effect s .ret { s with pc := s.stack[k], sp := ⟨k, Nat.lt_succ_of_lt h⟩ }
  | skip (i) (b : Bool) (h : (∃ x kk, i = .seImm x kk ∨ i = .sneImm x kk) ∨ (∃ x y, i = .seReg x y ∨ i = .sneReg x y) ∨
        (∃ x, i = .skp x ∨ i = .sknp x)) :
      Effect s i { s with pc := if b then s.pc + 4 else s.pc + 2 }
  /-- one register written -/
  | vx (i) (x : Nib) (b : Nat)
      (h : (∃ kk, i = .ldImm x kk ∨ i = .addImm x kk) ∨ (∃ y, i = .ldReg x y ∨ i = .orReg x y ∨ i = .andReg x y ∨ i = .xorReg x y) ∨
        i = .ldVxDt x) :
      Effect s i { s.setV x b with pc := s.pc + 2 }
  /-- a register and then the flag written -/
  | vxFlag (i) (x : Nib) (b : Nat) (f : Byte)
      (h : (∃ y, i = .addReg x y ∨ i = .subReg x y ∨ i = .subnReg x y) ∨ i = .shr x ∨ i = .shl x) :
      Effect s i { (s.setV x b).setVF f with pc := s.pc + 2 }
  /-- a register written from a free value -/
  | drawn (i) (x : Nib) (b : Nat) (h : (∃ kk, i = .rnd x kk) ∨ i = .ldVxK x) :
      Effect s i { s.setV x b with pc := s.pc + 2, draws := s.draws + 1 }
  | wait (x) : Effect s (.ldVxK x) s
  | index (i) (n : Nat) (h : (∃ nnn, i = .ldI nnn) ∨ ∃ x, i = .ldF x) : Effect s i { s.setI n with pc := s.pc + 2 }
  | addI (x) (n : Nat) (f : Byte) : Effect s (.addI x) { (s.setI n).setVF f with pc := s.pc + 2 }
  | store (i) (bytes : List Byte) (h : ∃ x, i = .ldB x ∨ i = .ldMemVx x) (hr : s.i.toNat + bytes.length ≤ 0x1000)
      (hf : s.params.fontWrite = .write ∨ 0x4F < s.i.toNat) :
      Effect s i { s.storeBytes s.i.toNat bytes with pc := s.pc + 2 }
  | load (x : Nib) (bytes : List Byte) (h : bytes.length = x.val + 1) :
      Effect s (.ldVxMem x) { s.setRegsFrom 0 bytes with pc := s.pc + 2 }
  | setDt (x) : Effect s (.ldDtVx x) { s with dt := s.reg x, pc := s.pc + 2 }
  | setSt (x) : Effect s (.ldStVx x) { s with st := s.reg x, pc := s.pc + 2 }
  | cls : Effect s .cls { s with disp := Display.blank, events := s.events ++ [.clearAll, .flush], pc := s.pc + 2 }
  | drw (x y n) (ox oy : Nat) (rows : List Byte) : Effect s (.drw x y n) { s.drawSprite ox oy rows with pc := s.pc + 2 }

/-- An instruction that stores does so where `writeBytes` lets it, or raises. -/
theorem store_effect (i : Instr) (s t : State) (bytes : List Byte) (hb : bytes ≠ []) (h : ∃ x, i = .ldB x ∨ i = .ldMemVx x)
    (ht : complete (encode i) s (advanceOr (s.writeBytes (s.dataAddr 0) bytes)) = .next t) : Effect s i t := by
  rcases s.writeBytes_cases (s.dataAddr 0) bytes s.dataAddr_zero_le hb with ⟨hr, hf, he⟩ | ⟨ha, hf, he⟩ | ⟨_, _, he⟩
  · rw [he, advanceOr, complete_advance] at ht
    cases ht
    exact .store i bytes h hr hf
  · rw [he] at ht
    cases ht
    exact .fault i _ _ (.font i _ h ha hf)
  · rw [he] at ht
    cases ht
    exact .fault i _ _ (.range i (.inr (h.imp fun x hx => hx.elim .inl fun hx => .inr (.inl hx))))

theorem skp_effect (i : Instr) (s t : State) (v : Byte) (f : Nib → Bool) (h : ∃ x, i = .skp x ∨ i = .sknp x)
    (ht : complete (encode i) s (match keyIndex v with | .ok k => skipIf (f k) s | .error r => .raised r) = .next t) :
    Effect s i t := by
  by_cases hv : v.toNat < 16
  · rw [keyIndex_ok v hv] at ht
    simp only [complete_skipIf] at ht
    cases ht
    exact .skip i _ (.inr (.inr h))
  · rw [keyIndex_error v hv] at ht
    cases ht
    exact .fault i _ _ (.key i v h hv)

/-- EVERYTHING AN INSTRUCTION CAN DO. -/
theorem exec_effect (i : Instr) (s t : State) (h : exec i s = .next t) : Effect s i t := by
  cases i with
  | cls => simp only [exec, execCls, complete_advance] at h; cases h; exact .cls
  | ret =>
    by_cases hs : s.sp.val = 0
    · simp only [exec, execRet, State.pop_none s hs] at h; cases h; exact .fault _ _ _ .underflow
    · have hk : s.sp.val - 1 < Config.stackDepth := by have := s.sp.isLt; omega
      simp only [exec, execRet, State.pop_some s (s.sp.val - 1) hk (by omega), complete, State.setPc, BitVec.ofNat_toNat,
        BitVec.setWidth_eq] at h
      cases h
      exact .ret _ hk (by omega)
  | sys nnn =>
    cases hp : s.params.sysPolicy with
    | nop => simp only [exec, execSys, hp, complete_advance] at h; cases h; exact .sys nnn
    | fault => simp only [exec, execSys, hp] at h; cases h; exact .fault _ _ _ (.sys nnn hp)
  | jp nnn =>
    simp only [exec, execJp, complete, State.setPc, BitVec.ofNat_toNat, BitVec.setWidth_eq] at h; cases h; exact .jp nnn
  | call nnn =>
    by_cases hs : s.sp.val < Config.stackDepth
    · simp only [exec, execCall, State.push_some s _ hs, complete, State.setPc, BitVec.ofNat_toNat, BitVec.setWidth_eq,
        ofNat_toNat_add_lit] at h
      cases h
      exact .call nnn hs
    · simp only [exec, execCall, State.push_none s _ hs] at h; cases h; exact .fault _ _ _ (.overflow nnn)
  | seImm x kk => simp only [exec, execSeImm, complete_skipIf] at h; cases h; exact .skip _ _ (.inl ⟨x, kk, .inl rfl⟩)
  | sneImm x kk => simp only [exec, execSneImm, complete_skipIf] at h; cases h; exact .skip _ _ (.inl ⟨x, kk, .inr rfl⟩)
  | seReg x y => simp only [exec, execSeReg, complete_skipIf] at h; cases h; exact .skip _ _ (.inr (.inl ⟨x, y, .inl rfl⟩))
  | sneReg x y => simp only [exec, execSneReg, complete_skipIf] at h; cases h; exact .skip _ _ (.inr (.inl ⟨x, y, .inr rfl⟩))
  | ldImm x kk => simp only [exec, execLdImm, complete_advance] at h; cases h; exact .vx _ x _ (by simp)
  | addImm x kk => simp only [exec, execAddImm, complete_advance] at h; cases h; exact .vx _ x _ (by simp)
  | ldReg x y => simp only [exec, execLdReg, complete_advance] at h; cases h; exact .vx _ x _ (by simp)
  | orReg x y => simp only [exec, execOrReg, complete_advance] at h; cases h; exact .vx _ x _ (by simp)
  | andReg x y => simp only [exec, execAndReg, complete_advance] at h; cases h; exact .vx _ x _ (by simp)
  | xorReg x y => simp only [exec, execXorReg, complete_advance] at h; cases h; exact .vx _ x _ (by simp)
  | addReg x y => simp only [exec, execAddReg, complete_advance] at h; cases h; exact .vxFlag _ x _ _ (by simp)
  | subReg x y => simp only [exec, execSubReg, complete_advance] at h; cases h; exact .vxFlag _ x _ _ (by simp)
  | shr x => simp only [exec, execShr, complete_advance] at h; cases h; exact .vxFlag _ x _ _ (by simp)
  | subnReg x y => simp only [exec, execSubnReg, complete_advance] at h; cases h; exact .vxFlag _ x _ _ (by simp)
  | shl x => simp only [exec, execShl, complete_advance] at h; cases h; exact .vxFlag _ x _ _ (by simp)
  | ldI nnn => simp only [exec, execLdI, complete_advance] at h; cases h; exact .index _ _ (by simp)
  | jpV0 nnn => simp only [exec, execJpV0, complete, State.setPc] at h; cases h; exact .jpV0 nnn
  | rnd x kk => simp only [exec, execRnd, complete_advance] at h; cases h; exact .drawn _ x _ (by simp)
  | drw x y n =>
    rcases s.readBytes_cases (s.dataAddr 0) n.val s.dataAddr_zero_le with ⟨_, he⟩ | ⟨_, he⟩
    · simp only [exec, execDrw, he, complete_advance] at h; cases h; exact .drw x y n _ _ _
    · simp only [exec, execDrw, he] at h; cases h; exact .fault _ _ _ (.range _ (.inl ⟨x, y, n, rfl⟩))
  | skp x => exact skp_effect _ s t _ _ ⟨x, .inl rfl⟩ h
  | sknp x => exact skp_effect _ s t _ (fun k => !keyPressed s.keys k) ⟨x, .inr rfl⟩ h
  | ldVxDt x => simp only [exec, execLdVxDt, complete_advance] at h; cases h; exact .vx _ x _ (by simp)
  | ldVxK x =>
    simp only [exec, execLdVxK] at h
    split at h
    · simp only [complete] at h; cases h; exact .wait x
    · simp only [complete_advance] at h; cases h; exact .drawn _ x _ (by simp)
  | ldDtVx x => simp only [exec, execLdDtVx, complete_advance] at h; cases h; exact .setDt x
  | ldStVx x => simp only [exec, execLdStVx, complete_advance] at h; cases h; exact .setSt x
  | addI x => simp only [exec, execAddI, complete_advance] at h; cases h; exact .addI x _ _
  | ldF x => simp only [exec, execLdF, complete_advance] at h; cases h; exact .index _ _ (by simp)
  | ldB x => exact store_effect _ s t (bcdDigits (s.reg x)) (by simp [bcdDigits]) ⟨x, .inl rfl⟩ h
  | ldMemVx x =>
    have hb : s.regsUpTo x ≠ [] := fun hc => by have := s.length_regsUpTo x; simp [hc] at this
    exact store_effect _ s t (s.regsUpTo x) hb ⟨x, .inr rfl⟩ h
  | ldVxMem x =>
    rcases s.readBytes_cases (s.dataAddr 0) (x.val + 1) s.dataAddr_zero_le with ⟨_, he⟩ | ⟨_, he⟩
    · simp only [exec, execLdVxMem, he, complete_advance] at h
      cases h
      have := State.setRegsFrom_frame ((List.range (x.val + 1)).map fun k => s.byteAt (s.dataAddr 0 + k)) s 0
      have hpc : (s.setRegsFrom 0 ((List.range (x.val + 1)).map fun k => s.byteAt (s.dataAddr 0 + k))).pc = s.pc := by
        rw [this]
      rw [hpc]
      exact .load x _ (by simp)
    · simp only [exec, execLdVxMem, he] at h; cases h; exact .fault _ _ _ (.range _ (.inr ⟨x, .inr (.inr rfl)⟩))

/-- EVERYTHING A MACHINE STEP CAN DO, as a rule for a property of a state and its successor: show it for a state whose inputs were
taken over, for the host's operations, for the entry of a fault, and for `exec` in the state with `started` set. -/
theorem step_induction (P : State → State → Prop)
    (hqueue : ∀ (s : State) rest replies, P s { s with pending := rest, loadReplies := replies })
    (hkeys : ∀ (s t : State) rest keys, P { s with pending := rest, keys := keys } t → P s t)
    (hload : ∀ (s : State) bytes rest replies, bytes.length ≤ Config.maxProgram →
      P s { s.storeBytes Config.loadAddr bytes with pending := rest, loadReplies := replies })
    (htick : ∀ (s : State) rest dt st, P s { s with pending := rest, dt := dt, st := st })
    (hfault : ∀ (s : State) r, P s { s with fault := some r, started := true })
    (hexec : ∀ (s t : State) i, s.fault = none → exec i s.markStarted = .next t → P s t)
    (s t : State) (h : step s = .next t) : P s t := by
  have hrun : ∀ s t, runStep s = .next t → P s t := by
    intro s t h
    rcases runStep_cases s with ⟨_, he⟩ | ⟨_, _, he⟩ | ⟨_, _, _, _, he⟩ | ⟨hf, _, i, _, he⟩ <;> rw [he] at h
    · cases h; exact hqueue _ _ _
    · cases h; exact hfault _ _
    · cases h; exact hfault _ _
    · exact hexec s t i hf h
  rcases step_cases s with ⟨_, he⟩ | ⟨bytes, rest, _, he⟩ | ⟨rest, _, he⟩ | ⟨_, rest, _, _, he⟩ | ⟨keys, rest, _, _, he⟩ <;>
    rw [he] at h
  · exact hrun s t h
  · simp only [State.loadProgram] at h
    split at h
    · cases h; exact hqueue _ _ _
    · rename_i hc
      cases h
      exact hload _ _ _ _ (by omega)
  · rw [timerTick_frame] at h; cases h; exact htick _ _ _ _
  · cases h; exact hqueue _ _ _
  · exact hkeys s t _ _ (hrun _ t h)

end Sys2Proof.Machine
end

