-- ==== Sys2Proof/Laws/PerInstr.lean ====
section
/-! SUPPORT. Statements made instruction by instruction (LAWS.json). Family `OwnRow`: the word the encoder builds for a
well-formed instruction is accepted by a row of the dispatch table that makes that very instruction of its fields. (That it is
the FIRST row to accept it is a statement of its own.) -/

namespace Sys2Proof.Laws.OwnRow

def Statement (i : Instr) : Prop :=
  i.wellFormed = true → ∃ r ∈ dispatchTable .standard, r.accepts (encode i) = true ∧ r.make (fieldsOf (encode i)) = i

/-- The statement, from the row of a format whose fields the instruction uses. -/
theorem of_row (i : Instr) (mask pattern : Word) (make : Fields → Instr)
    (hr : (⟨mask, pattern, make⟩ : Row) ∈ dispatchTable .standard)
    (ha : Row.accepts ⟨mask, pattern, make⟩ (encode i) = true) (hm : make (fieldsOf (encode i)) = i) : Statement i :=
  fun _ => ⟨_, hr, ha, hm⟩

theorem cls : Statement (.cls) :=
  of_row _ 0xFFFF 0x00E0 (fun _ => .cls)
    (by simp [dispatchTable, rowsControl, rowsAlu, rowsMiddle, rowsTimerKey, rowsIndex])
    (by decide)
    (rfl)

theorem ret : Statement (.ret) :=
  of_row _ 0xFFFF 0x00EE (fun _ => .ret)
    (by simp [dispatchTable, rowsControl, rowsAlu, rowsMiddle, rowsTimerKey, rowsIndex])
    (by decide)
    (rfl)

theorem sys (nnn : Addr) : Statement (.sys nnn) :=
  of_row _ 0xF000 0x0000 (fun f => .sys f.nnn)
    (by simp [dispatchTable, rowsControl, rowsAlu, rowsMiddle, rowsTimerKey, rowsIndex])
    (accepts_encFA _ _ _ _ rfl)
    (by simp [encode])

theorem jp (nnn : Addr) : Statement (.jp nnn) :=
  of_row _ 0xF000 0x1000 (fun f => .jp f.nnn)
    (by simp [dispatchTable, rowsControl, rowsAlu, rowsMiddle, rowsTimerKey, rowsIndex])
    (accepts_encFA _ _ _ _ rfl)
    (by simp [encode])

theorem call (nnn : Addr) : Statement (.call nnn) :=
  of_row _ 0xF000 0x2000 (fun f => .call f.nnn)
    (by simp [dispatchTable, rowsControl, rowsAlu, rowsMiddle, rowsTimerKey, rowsIndex])
    (accepts_encFA _ _ _ _ rfl)
    (by simp [encode])

theorem seImm (x : Nib) (kk : Byte) : Statement (.seImm x kk) :=
  of_row _ 0xF000 0x3000 (fun f => .seImm f.x f.kk)
    (by simp [dispatchTable, rowsControl, rowsAlu, rowsMiddle, rowsTimerKey, rowsIndex])
    (accepts_encFXK _ _ _ _ _ rfl)
    (by simp [encode])

theorem sneImm (x : Nib) (kk : Byte) : Statement (.sneImm x kk) :=
  of_row _ 0xF000 0x4000 (fun f => .sneImm f.x f.kk)
    (by simp [dispatchTable, rowsControl, rowsAlu, rowsMiddle, rowsTimerKey, rowsIndex])
    (accepts_encFXK _ _ _ _ _ rfl)
    (by simp [encode])

theorem seReg (x : Nib) (y : Nib) : Statement (.seReg x y) :=
  of_row _ 0xF00F 0x5000 (fun f => .seReg f.x f.y)
    (by simp [dispatchTable, rowsControl, rowsAlu, rowsMiddle, rowsTimerKey, rowsIndex])
    (accepts_encFXY _ _ _ _ _ _ rfl)
    (by simp [encode])

theorem ldImm (x : Nib) (kk : Byte) : Statement (.ldImm x kk) :=
  of_row _ 0xF000 0x6000 (fun f => .ldImm f.x f.kk)
    (by simp [dispatchTable, rowsControl, rowsAlu, rowsMiddle, rowsTimerKey, rowsIndex])
    (accepts_encFXK _ _ _ _ _ rfl)
    (by simp [encode])

theorem addImm (x : Nib) (kk : Byte) : Statement (.addImm x kk) :=
  of_row _ 0xF000 0x7000 (fun f => .addImm f.x f.kk)
    (by simp [dispatchTable, rowsControl, rowsAlu, rowsMiddle, rowsTimerKey, rowsIndex])
    (accepts_encFXK _ _ _ _ _ rfl)
    (by simp [encode])

theorem ldReg (x : Nib) (y : Nib) : Statement (.ldReg x y) :=
  of_row _ 0xF00F 0x8000 (fun f => .ldReg f.x f.y)
    (by simp [dispatchTable, rowsControl, rowsAlu, rowsMiddle, rowsTimerKey, rowsIndex])
    (accepts_encFXY _ _ _ _ _ _ rfl)
    (by simp [encode])

theorem orReg (x : Nib) (y : Nib) : Statement (.orReg x y) :=
  of_row _ 0xF00F 0x8001 (fun f => .orReg f.x f.y)
    (by simp [dispatchTable, rowsControl, rowsAlu, rowsMiddle, rowsTimerKey, rowsIndex])
    (accepts_encFXY _ _ _ _ _ _ rfl)
    (by simp [encode])

theorem andReg (x : Nib) (y : Nib) : Statement (.andReg x y) :=
  of_row _ 0xF00F 0x8002 (fun f => .andReg f.x f.y)
    (by simp [dispatchTable, rowsControl, rowsAlu, rowsMiddle, rowsTimerKey, rowsIndex])
    (accepts_encFXY _ _ _ _ _ _ rfl)
    (by simp [encode])

theorem xorReg (x : Nib) (y : Nib) : Statement (.xorReg x y) :=
  of_row _ 0xF00F 0x8003 (fun f => .xorReg f.x f.y)
    (by simp [dispatchTable, rowsControl, rowsAlu, rowsMiddle, rowsTimerKey, rowsIndex])
    (accepts_encFXY _ _ _ _ _ _ rfl)
    (by simp [encode])

theorem addReg (x : Nib) (y : Nib) : Statement (.addReg x y) :=
  of_row _ 0xF00F 0x8004 (fun f => .addReg f.x f.y)
    (by simp [dispatchTable, rowsControl, rowsAlu, rowsMiddle, rowsTimerKey, rowsIndex])
    (accepts_encFXY _ _ _ _ _ _ rfl)
    (by simp [encode])

theorem subReg (x : Nib) (y : Nib) : Statement (.subReg x y) :=
  of_row _ 0xF00F 0x8005 (fun f => .subReg f.x f.y)
    (by simp [dispatchTable, rowsControl, rowsAlu, rowsMiddle, rowsTimerKey, rowsIndex])
    (accepts_encFXY _ _ _ _ _ _ rfl)
    (by simp [encode])

theorem shr (x : Nib) : Statement (.shr x) :=
  of_row _ 0xF00F 0x8006 (fun f => .shr f.x)
    (by simp [dispatchTable, rowsControl, rowsAlu, rowsMiddle, rowsTimerKey, rowsIndex])
    (accepts_encFXY _ _ _ _ _ _ rfl)
    (by simp [encode])

theorem subnReg (x : Nib) (y : Nib) : Statement (.subnReg x y) :=
  of_row _ 0xF00F 0x8007 (fun f => .subnReg f.x f.y)
    (by simp [dispatchTable, rowsControl, rowsAlu, rowsMiddle, rowsTimerKey, rowsIndex])
    (accepts_encFXY _ _ _ _ _ _ rfl)
    (by simp [encode])

theorem shl (x : Nib) : Statement (.shl x) :=
  of_row _ 0xF00F 0x800E (fun f => .shl f.x)
    (by simp [dispatchTable, rowsControl, rowsAlu, rowsMiddle, rowsTimerKey, rowsIndex])
    (accepts_encFXY _ _ _ _ _ _ rfl)
    (by simp [encode])

theorem sneReg (x : Nib) (y : Nib) : Statement (.sneReg x y) :=
  of_row _ 0xF00F 0x9000 (fun f => .sneReg f.x f.y)
    (by simp [dispatchTable, rowsControl, rowsAlu, rowsMiddle, rowsTimerKey, rowsIndex])
    (accepts_encFXY _ _ _ _ _ _ rfl)
    (by simp [encode])

theorem ldI (nnn : Addr) : Statement (.ldI nnn) :=
  of_row _ 0xF000 0xA000 (fun f => .ldI f.nnn)
    (by simp [dispatchTable, rowsControl, rowsAlu, rowsMiddle, rowsTimerKey, rowsIndex])
    (accepts_encFA _ _ _ _ rfl)
    (by simp [encode])

theorem jpV0 (nnn : Addr) : Statement (.jpV0 nnn) :=
  of_row _ 0xF000 0xB000 (fun f => .jpV0 f.nnn)
    (by simp [dispatchTable, rowsControl, rowsAlu, rowsMiddle, rowsTimerKey, rowsIndex])
    (accepts_encFA _ _ _ _ rfl)
    (by simp [encode])

theorem rnd (x : Nib) (kk : Byte) : Statement (.rnd x kk) :=
  of_row _ 0xF000 0xC000 (fun f => .rnd f.x f.kk)
    (by simp [dispatchTable, rowsControl, rowsAlu, rowsMiddle, rowsTimerKey, rowsIndex])
    (accepts_encFXK _ _ _ _ _ rfl)
    (by simp [encode])

theorem drw (x : Nib) (y : Nib) (n : Nib) : Statement (.drw x y n) :=
  of_row _ 0xF000 0xD000 (fun f => .drw f.x f.y f.n)
    (by simp [dispatchTable, rowsControl, rowsAlu, rowsMiddle, rowsTimerKey, rowsIndex])
    (accepts_encFXYN _ _ _ _ _ _ rfl)
    (by simp [encode])

theorem skp (x : Nib) : Statement (.skp x) :=
  of_row _ 0xF0FF 0xE09E (fun f => .skp f.x)
    (by simp [dispatchTable, rowsControl, rowsAlu, rowsMiddle, rowsTimerKey, rowsIndex])
    (accepts_encFXF _ _ _ _ _ rfl)
    (by simp [encode])

theorem sknp (x : Nib) : Statement (.sknp x) :=
  of_row _ 0xF0FF 0xE0A1 (fun f => .sknp f.x)
    (by simp [dispatchTable, rowsControl, rowsAlu, rowsMiddle, rowsTimerKey, rowsIndex])
    (accepts_encFXF _ _ _ _ _ rfl)
    (by simp [encode])

theorem ldVxDt (x : Nib) : Statement (.ldVxDt x) :=
  of_row _ 0xF0FF 0xF007 (fun f => .ldVxDt f.x)
    (by simp [dispatchTable, rowsControl, rowsAlu, rowsMiddle, rowsTimerKey, rowsIndex])
    (accepts_encFXF _ _ _ _ _ rfl)
    (by simp [encode])

theorem ldVxK (x : Nib) : Statement (.ldVxK x) :=
  of_row _ 0xF0FF 0xF00A (fun f => .ldVxK f.x)
    (by simp [dispatchTable, rowsControl, rowsAlu, rowsMiddle, rowsTimerKey, rowsIndex])
    (accepts_encFXF _ _ _ _ _ rfl)
    (by simp [encode])

theorem ldDtVx (x : Nib) : Statement (.ldDtVx x) :=
  of_row _ 0xF0FF 0xF015 (fun f => .ldDtVx f.x)
    (by simp [dispatchTable, rowsControl, rowsAlu, rowsMiddle, rowsTimerKey, rowsIndex])
    (accepts_encFXF _ _ _ _ _ rfl)
    (by simp [encode])

theorem ldStVx (x : Nib) : Statement (.ldStVx x) :=
  of_row _ 0xF0FF 0xF018 (fun f => .ldStVx f.x)
    (by simp [dispatchTable, rowsControl, rowsAlu, rowsMiddle, rowsTimerKey, rowsIndex])
    (accepts_encFXF _ _ _ _ _ rfl)
    (by simp [encode])

theorem addI (x : Nib) : Statement (.addI x) :=
  of_row _ 0xF0FF 0xF01E (fun f => .addI f.x)
    (by simp [dispatchTable, rowsControl, rowsAlu, rowsMiddle, rowsTimerKey, rowsIndex])
    (accepts_encFXF _ _ _ _ _ rfl)
    (by simp [encode])

theorem ldF (x : Nib) : Statement (.ldF x) :=
  of_row _ 0xF0FF 0xF029 (fun f => .ldF f.x)
    (by simp [dispatchTable, rowsControl, rowsAlu, rowsMiddle, rowsTimerKey, rowsIndex])
    (accepts_encFXF _ _ _ _ _ rfl)
    (by simp [encode])

theorem ldB (x : Nib) : Statement (.ldB x) :=
  of_row _ 0xF0FF 0xF033 (fun f => .ldB f.x)
    (by simp [dispatchTable, rowsControl, rowsAlu, rowsMiddle, rowsTimerKey, rowsIndex])
    (accepts_encFXF _ _ _ _ _ rfl)
    (by simp [encode])

theorem ldMemVx (x : Nib) : Statement (.ldMemVx x) :=
  of_row _ 0xF0FF 0xF055 (fun f => .ldMemVx f.x)
    (by simp [dispatchTable, rowsControl, rowsAlu, rowsMiddle, rowsTimerKey, rowsIndex])
    (accepts_encFXF _ _ _ _ _ rfl)
    (by simp [encode])

theorem ldVxMem (x : Nib) : Statement (.ldVxMem x) :=
  of_row _ 0xF0FF 0xF065 (fun f => .ldVxMem f.x)
    (by simp [dispatchTable, rowsControl, rowsAlu, rowsMiddle, rowsTimerKey, rowsIndex])
    (accepts_encFXF _ _ _ _ _ rfl)
    (by simp [encode])

end Sys2Proof.Laws.OwnRow
end

