-- ==== Sys2Proof/Tests/Slice0.lean ====
section
/-! SUPPORT. Small tests. Every expected value is read off the spec: words from 30_encoding R82 and R85, effects from the vectors
of 95_test_vectors (their ids stand in the comments) or computed by hand from the rule cited. Then one witness for each statement
with hypotheses: a concrete state and operands that meet them. -/

namespace Sys2Proof.Tests
open Sys2Proof.Machine Sys2Proof.Safety

/-! ## WellFormed: the ill-formed terms are refused -/

-- 30_encoding R86: 0x00E0 and 0x00EE are CLS and RET, never SYS
theorem test_wellFormed_refuses_sys_0E0 : Instr.wellFormed (.sys 0x0E0) = false := by decide
theorem test_wellFormed_refuses_sys_0EE : Instr.wellFormed (.sys 0x0EE) = false := by decide
theorem test_wellFormed_accepts_neighbours : Instr.wellFormed (.sys 0x0E1) = true ∧ Instr.wellFormed (.sys 0x0EF) = true := by decide

/-! ## Decoding: every constructor's word, written out from R82 and R85 -/

theorem test_decode_control :
    decode .standard 0x00E0 = .ok .cls ∧ decode .standard 0x00EE = .ok .ret ∧ decode .standard 0x0123 = .ok (.sys 0x123) ∧
    decode .standard 0x1ABC = .ok (.jp 0xABC) ∧ decode .standard 0x2DEF = .ok (.call 0xDEF) ∧
    decode .standard 0x3A12 = .ok (.seImm 0xA 0x12) ∧ decode .standard 0x4B34 = .ok (.sneImm 0xB 0x34) ∧
    decode .standard 0x5CD0 = .ok (.seReg 0xC 0xD) ∧ decode .standard 0x9EF0 = .ok (.sneReg 0xE 0xF) ∧
    decode .standard 0xB456 = .ok (.jpV0 0x456) := by decide

theorem test_decode_alu :
    decode .standard 0x6A7B = .ok (.ldImm 0xA 0x7B) ∧ decode .standard 0x7203 = .ok (.addImm 2 0x03) ∧
    decode .standard 0x8310 = .ok (.ldReg 3 1) ∧ decode .standard 0x8121 = .ok (.orReg 1 2) ∧
    decode .standard 0x8122 = .ok (.andReg 1 2) ∧ decode .standard 0x8123 = .ok (.xorReg 1 2) ∧
    decode .standard 0x8124 = .ok (.addReg 1 2) ∧ decode .standard 0x8125 = .ok (.subReg 1 2) ∧
    decode .standard 0x8127 = .ok (.subnReg 1 2) ∧ decode .standard 0xC10F = .ok (.rnd 1 0x0F) := by decide

-- R88: the y nibble of SHR and SHL is ignored (V-C9, V-A26)
theorem test_decode_shifts :
    decode .standard 0x8106 = .ok (.shr 1) ∧ decode .standard 0x81F6 = .ok (.shr 1) ∧
    decode .standard 0x840E = .ok (.shl 4) ∧ decode .standard 0x849E = .ok (.shl 4) := by decide

theorem test_decode_index_and_display :
    decode .standard 0xA300 = .ok (.ldI 0x300) ∧ decode .standard 0xF21E = .ok (.addI 2) ∧
    decode .standard 0xF029 = .ok (.ldF 0) ∧ decode .standard 0xF533 = .ok (.ldB 5) ∧
    decode .standard 0xF155 = .ok (.ldMemVx 1) ∧ decode .standard 0xF265 = .ok (.ldVxMem 2) ∧
    decode .standard 0xD12F = .ok (.drw 1 2 0xF) := by decide

theorem test_decode_timers_and_keys :
    decode .standard 0xE59E = .ok (.skp 5) ∧ decode .standard 0xE5A1 = .ok (.sknp 5) ∧
    decode .standard 0xF207 = .ok (.ldVxDt 2) ∧ decode .standard 0xF30A = .ok (.ldVxK 3) ∧
    decode .standard 0xF115 = .ok (.ldDtVx 1) ∧ decode .standard 0xF118 = .ok (.ldStVx 1) := by decide

-- V-C7, V-C8: unknown words
theorem test_decode_unknown :
    decode .standard 0x5121 = .error (.unknownOpcode 0x5121) ∧ decode .standard 0x8008 = .error (.unknownOpcode 0x8008) ∧
    decode .standard 0x800F = .error (.unknownOpcode 0x800F) ∧ decode .standard 0x9121 = .error (.unknownOpcode 0x9121) ∧
    decode .standard 0xE09F = .error (.unknownOpcode 0xE09F) ∧ decode .standard 0xFFFF = .error (.unknownOpcode 0xFFFF) ∧
    decode .absent 0xF007 = .error (.unknownOpcode 0xF007) ∧ decode .absent 0xE19E = .error (.unknownOpcode 0xE19E) := by decide

theorem test_decodeTableWord :
    decodeTableWord 16 0xD125 = some (.drw 1 2 5) ∧ decodeTableWord 8 0xFFE0 = some .cls ∧ decodeTableWord 16 0x5121 = none := by
  decide

-- 10_state R31: the glyphs of 0 and F
theorem test_font : Config.fontBytes.take 5 = [0xF0, 0x90, 0x90, 0x90, 0xF0] ∧
    Config.fontBytes.drop 75 = [0xF0, 0x80, 0xF0, 0x80, 0x80] ∧ Config.font.toList = Config.fontBytes := by decide

/-- A machine constructed with another font: each byte is its address plus 1. -/
def otherFont : Config.Font := Vector.ofFn fun a => BitVec.ofNat 8 (a.val + 1)

-- R280 and R31 on another font: what stands in the font region is the parameter, and zero follows it
theorem test_other_font : (State.construct { Config.defaults with font := otherFont }).byteAt 0x04F = 80 ∧
    (State.construct { Config.defaults with font := otherFont }).byteAt 0x000 = 1 ∧
    (State.construct { Config.defaults with font := otherFont }).byteAt 0x050 = 0 := by decide

/-! ## One step -/

/-- What `f` reads after one machine step on a word placed at pc. -/
def stepped {α : Type} (s : State) (w : Nat) (f : State → α) : Option α :=
  match step (s.withFetchWord 16 w) with
  | .next t => some (f t)
  | .fault _ => none
  | .refused _ => none

/-- The reset state with registers set. -/
def withRegs (regs : List (Nib × Byte)) : State :=
  { State.reset with v := regs.foldl (fun v r => v.set r.1 r.2) State.reset.v }

/-- The reset state with registers, `I` and memory bytes set. -/
def withMem (regs : List (Nib × Byte)) (i : Addr) (m : Memory) : State := { withRegs regs with i := i, mem := m }

/-- A machine with other parameters. -/
def withParams (s : State) (sys : Config.SysPolicy) (addI : Config.AddIFlag) (font : Config.FontWrite) : State :=
  { s with params := { s.params with sysPolicy := sys, addIFlag := addI, fontWrite := font } }

/-- What the tests of a register instruction read: a register, VF and pc. -/
def seen (x : Nib) (t : State) : Byte × Byte × Addr := (t.reg x, t.reg 15, t.pc)

/-- The record of a fault raised at 0x200. -/
def raisedAt200 (kind : FaultKind) (w : Word) (info : Option FaultInfo) : Option (Option FaultRecord × Addr) :=
  some (some ⟨kind, some w, 0x200, info⟩, 0x200)

-- V-C2, V-F16
theorem test_sys_nop : stepped State.reset 0x00E1 (fun t => (t.pc, t.fault)) = some (0x202, none) := by decide
theorem test_sys_fault : stepped (withParams State.reset .fault .preAdd .fault) 0x0123 (fun t => (t.fault, t.pc)) =
    raisedAt200 .sysUnsupported 0x0123 none := by decide
-- V-F3, L1-12
theorem test_ret_pops : stepped { State.reset with sp := 2, stack := (State.reset.stack.set 0 0x222).set 1 0x456 } 0x00EE
    (fun t => (t.pc, t.sp, t.stack[1])) = some (0x456, 1, 0x456) := by decide
theorem test_ret_underflow : stepped State.reset 0x00EE (fun t => (t.fault, t.pc)) = raisedAt200 .stackUnderflow 0x00EE none := by
  decide
-- L1-6, V-F14
theorem test_jp : stepped State.reset 0x1300 (fun t => t.pc) = some 0x300 := by decide
theorem test_jpV0_wraps : stepped (withRegs [(0, 0xFF)]) 0xBFFF (fun t => t.pc) = some 0x0FE := by decide
-- V-F2, V-F1
theorem test_call_pushes : stepped { State.reset with pc := 0xFFE } 0x2100 (fun t => (t.stack[0], t.sp, t.pc)) =
    some (0x000, 1, 0x100) := by decide
theorem test_call_overflow : stepped { State.reset with sp := 16 } 0x2300 (fun t => (t.fault, t.pc)) =
    raisedAt200 .stackOverflow 0x2300 none := by decide
-- L1-13, V-F4, V-F6, V-F7
theorem test_seImm : stepped (withRegs [(3, 0x10)]) 0x3310 (fun t => t.pc) = some 0x204 ∧
    stepped (withRegs [(3, 0x11)]) 0x3310 (fun t => t.pc) = some 0x202 := by decide
theorem test_sneImm : stepped (withRegs [(3, 0x10)]) 0x4310 (fun t => t.pc) = some 0x202 ∧
    stepped (withRegs [(3, 0x10)]) 0x4311 (fun t => t.pc) = some 0x204 := by decide
-- V-F8, V-F9, V-F10, V-F11
theorem test_seReg : stepped (withRegs [(1, 9)]) 0x5110 (fun t => t.pc) = some 0x204 ∧
    stepped (withRegs [(1, 0x7F), (2, 0x7E)]) 0x5120 (fun t => t.pc) = some 0x202 := by decide
theorem test_sneReg : stepped (withRegs [(1, 9)]) 0x9110 (fun t => t.pc) = some 0x202 ∧
    stepped (withRegs [(1, 1), (2, 2)]) 0x9120 (fun t => t.pc) = some 0x204 := by decide
-- V-A1, V-A2, V-A3
theorem test_ldImm : stepped State.reset 0x6A7B (seen 0xA) = some (0x7B, 0, 0x202) := by decide
theorem test_ldReg : stepped (withRegs [(1, 0x42)]) 0x8310 (seen 3) = some (0x42, 0, 0x202) := by decide
theorem test_addImm_no_flag : stepped (withRegs [(2, 0xFE), (15, 0x55)]) 0x7203 (seen 2) = some (0x01, 0x55, 0x202) := by decide
-- V-A5, V-A6, V-A8
theorem test_or : stepped (withRegs [(1, 0xF0), (2, 0x0F), (15, 0x33)]) 0x8121 (seen 1) = some (0xFF, 0x33, 0x202) := by decide
theorem test_and : stepped (withRegs [(1, 0xF0), (2, 0x3C), (15, 0x33)]) 0x8122 (seen 1) = some (0x30, 0x33, 0x202) := by decide
theorem test_xor : stepped (withRegs [(1, 0x5A), (15, 0x77)]) 0x8113 (seen 1) = some (0x00, 0x77, 0x202) := by decide
-- V-A10, V-A11
theorem test_add_carry : stepped (withRegs [(1, 0x80), (2, 0x80)]) 0x8124 (seen 1) = some (0x00, 1, 0x202) := by decide
theorem test_add_into_vf : stepped (withRegs [(15, 0xFF), (1, 0x01)]) 0x8F14 (seen 15) = some (1, 1, 0x202) := by decide
-- V-A14, L1-5
theorem test_sub_strict : stepped (withRegs [(1, 7), (2, 7), (15, 9)]) 0x8125 (seen 1) = some (0x00, 0, 0x202) := by decide
theorem test_sub_wraps : stepped (withRegs [(1, 3), (2, 5)]) 0x8125 (seen 1) = some (0xFE, 0, 0x202) := by decide
-- V-A17, V-A18
theorem test_subn : stepped (withRegs [(1, 3), (2, 5)]) 0x8127 (seen 1) = some (0x02, 1, 0x202) := by decide
theorem test_subn_wraps : stepped (withRegs [(1, 5), (2, 3)]) 0x8127 (seen 1) = some (0xFE, 0, 0x202) := by decide
-- V-A20, V-A22
theorem test_shr : stepped (withRegs [(4, 5)]) 0x8406 (seen 4) = some (0x02, 1, 0x202) := by decide
theorem test_shr_vf : stepped (withRegs [(15, 3)]) 0x8F06 (seen 15) = some (1, 1, 0x202) := by decide
-- V-A23, V-A24
theorem test_shl : stepped (withRegs [(4, 0x81)]) 0x840E (seen 4) = some (0x02, 1, 0x202) := by decide
theorem test_shl_no_carry : stepped (withRegs [(4, 0x40)]) 0x840E (seen 4) = some (0x80, 0, 0x202) := by decide
-- V-A28: under the mask 0 the free byte does not matter
theorem test_rnd_mask_zero : ∃ t, exec (.rnd 1 0x00) (withRegs [(1, 0x99)]) = .next t ∧ t.reg 1 = 0x00 ∧ t.draws = 1 :=
  ⟨_, rfl, by simp [State.reg, State.setV, State.countDraw, State.advance, State.setPc], rfl⟩
-- V-M1, V-M2, V-M3, V-M7
theorem test_ldI : stepped State.reset 0xA300 (fun t => (t.i, t.pc)) = some (0x300, 0x202) := by decide
theorem test_addI_clears_vf : stepped (withMem [(2, 0x10), (15, 0x33)] 0x300 []) 0xF21E (fun t => (t.i, t.reg 15)) =
    some (0x310, 0) := by decide
theorem test_addI_sum_overflow : stepped (withParams (withMem [(0, 1)] 0xFFF []) .nop .sumOverflow .fault) 0xF01E
    (fun t => (t.i, t.reg 15)) = some (0x000, 1) := by decide
theorem test_ldF : stepped (withRegs [(0, 0xFF)]) 0xF029 (fun t => t.i) = some 0x4FB := by decide
-- V-M9, V-M10
theorem test_ldB : stepped (withMem [(5, 0xFF)] 0x300 []) 0xF533
    (fun t => (t.byteAt 0x300, t.byteAt 0x301, t.byteAt 0x302)) = some (2, 5, 5) := by decide
theorem test_ldB_range : stepped (withMem [(5, 0x7B)] 0xFFE []) 0xF533 (fun t => (t.fault, t.pc)) =
    raisedAt200 .addressOutOfRange 0xF533 (some (.addr 0x1000)) := by decide
-- V-M13, V-M16
theorem test_store_registers : stepped (withMem [(0, 0x11), (1, 0x22)] 0x300 []) 0xF155
    (fun t => (t.byteAt 0x300, t.byteAt 0x301, t.byteAt 0x302, t.i)) = some (0x11, 0x22, 0, 0x300) := by decide
theorem test_store_font : stepped State.reset 0xF455 (fun t => (t.fault, t.pc)) =
    raisedAt200 .fontRegionWrite 0xF455 (some (.addr 0x000)) := by decide
-- V-M17, V-M20
theorem test_load_registers : stepped (withMem [(3, 9)] 0x300 [(0x300, 1), (0x301, 2), (0x302, 3)]) 0xF265
    (fun t => (t.reg 0, t.reg 1, t.reg 2, t.reg 3, t.i)) = some (1, 2, 3, 9, 0x300) := by decide
theorem test_load_range : stepped (withMem [] 0xFFF []) 0xF165 (fun t => (t.fault, t.pc)) =
    raisedAt200 .addressOutOfRange 0xF165 (some (.addr 0x1000)) := by decide
-- V-D8; L1-8 with V-D5's collision rule: bit 7 is the leftmost, the row wraps to x = 0
theorem test_cls : stepped { withRegs [(15, 0x42)] with disp := Display.blank.setCell (3, 4) true } 0x00E0
    (fun t => (t.disp.cell (3, 4), t.reg 15, t.events)) = some (false, 0x42, [.clearAll, .flush]) := by decide
theorem test_drw_wraps : stepped (withMem [(1, 0x3F)] 0x300 [(0x300, 0xC0)]) 0xD121
    (fun t => (t.disp.cell (63, 0), t.disp.cell (0, 0), t.disp.cell (1, 0), t.reg 15)) = some (true, true, false, 0) := by decide
-- V-D7, V-D6
theorem test_drw_origin_is_old_vf : stepped (withMem [(15, 5)] 0x300 [(0x300, 0x80)]) 0xDF11
    (fun t => (t.disp.cell (5, 0), t.disp.cell (0, 0), t.reg 15)) = some (true, false, 0) := by decide
-- V-T1, V-T5, V-T3, V-T4
theorem test_skp : stepped { withRegs [(5, 10)] with keys := 0x0400 } 0xE59E (fun t => t.pc) = some 0x204 := by decide
theorem test_skp_no_such_key : stepped (withRegs [(5, 0x10)]) 0xE59E (fun t => (t.fault, t.pc)) =
    raisedAt200 .keyIndexOutOfRange 0xE59E (some (.value 0x10)) := by decide
theorem test_sknp : stepped (withRegs [(5, 10)]) 0xE5A1 (fun t => t.pc) = some 0x204 ∧
    stepped { withRegs [(5, 10)] with keys := 0x0400 } 0xE5A1 (fun t => t.pc) = some 0x202 := by decide
-- V-T6, V-T7: one pressed key is the only choice
theorem test_wait_for_key : stepped State.reset 0xF30A (fun t => t.pc) = some 0x200 ∧
    stepped { State.reset with keys := 0x0080 } 0xF30A (fun t => (t.reg 3, t.pc)) = some (7, 0x202) := by decide
-- V-T9's moves, V-T11, V-T10
theorem test_ldVxDt : stepped { State.reset with dt := 0x39 } 0xF207 (seen 2) = some (0x39, 0, 0x202) := by decide
theorem test_ldDtVx : stepped (withRegs [(1, 0x3C)]) 0xF115 (fun t => (t.dt, t.st)) = some (0x3C, 0) := by decide
theorem test_ldStVx : stepped (withRegs [(1, 5)]) 0xF118 (fun t => (t.st, t.dt)) = some (5, 0) := by decide
theorem test_tick : { State.reset with st := 1 }.timerTick.st = 0 ∧ { State.reset with st := 1 }.timerTick.dt = 0 := by decide
-- V-C5, V-C4, V-C6
theorem test_fetch_end : (match step { State.reset with pc := 0xFFF } with
      | .next t => t.fault
      | _ => none) = some ⟨.addressOutOfRange, none, 0xFFF, some (.addr 0x1000)⟩ := by decide
theorem test_pc_wraps : stepped { State.reset with pc := 0xFFE } 0x6001 (fun t => (t.reg 0, t.pc)) = some (1, 0x000) := by decide
theorem test_odd_pc : stepped { State.reset with pc := 0x201 } 0x6005 (fun t => (t.reg 0, t.pc)) = some (5, 0x203) := by decide

/-- 44_display R212 against R213 (a)'s second clause (log 14): a sprite bit over a SET cell is erased by the first draw, so the
second draw erases nothing there and VF is 0. -/
theorem test_second_draw_without_collision :
    stepped { withMem [] 0x300 [(0x300, 0x80)] with disp := Display.blank.setCell (0, 0) true } 0xD001
      (fun t => (t.disp.cell (0, 0), t.reg 15)) = some (false, 1) ∧
    stepped (withMem [] 0x300 [(0x300, 0x80)]) 0xD001 (fun t => (t.disp.cell (0, 0), t.reg 15)) = some (true, 0) := by decide

/-- Equal memories are equal data: writing back what an address read at reset removes its entry (log 17). -/
theorem test_memory_canonical :
    ((State.reset.storeByte 0x300 5).storeByte 0x300 0).mem = [] ∧
    ((State.reset.storeByte 0x301 6).storeByte 0x300 5).mem = [(0x300, 5), (0x301, 6)] ∧
    (State.reset.storeByte 0x000 0xF0).mem = [] ∧ State.reset.byteAt 0x000 = 0xF0 ∧ State.reset.byteAt 0x050 = 0 := by decide

/-! ## Witnesses: for each statement with hypotheses, operands that meet them; for each clause, at a boundary of its range -/

/-- The reset state with a word stored at 0x200. -/
def ready (w : Nat) : State := State.reset.withFetchWord 16 w

theorem ready_runs (w : Nat) (h : wordOfBytes ((ready w).byteAt 0x200) ((ready w).byteAt 0x201) = BitVec.ofNat 16 w) :
    AboutToRun (ready w) (BitVec.ofNat 16 w) := ⟨rfl, rfl, (by decide : (0x200#12).toNat < 0xFFF), h⟩

/-- The encoding clauses (`RowDecodes`): a word of every row, with its mask and pattern (R85). -/
theorem witness_RowDecodes :
    ([(0xF000, 0x1000, 0x1ABC), (0xF000, 0xB000, 0xB456), (0xF000, 0x2000, 0x2DEF), (0xFFFF, 0x00EE, 0x00EE),
      (0xF000, 0x3000, 0x3A12), (0xF000, 0x4000, 0x4B34), (0xF00F, 0x5000, 0x5CD0), (0xF00F, 0x9000, 0x9EF0),
      (0xF000, 0x6000, 0x6A7B), (0xF00F, 0x8000, 0x8310), (0xF000, 0x7000, 0x7203)] ++
     [(0xF00F, 0x8001, 0x8121), (0xF00F, 0x8002, 0x8122), (0xF00F, 0x8003, 0x8123), (0xF00F, 0x8004, 0x8124),
      (0xF00F, 0x8005, 0x8125), (0xF00F, 0x8007, 0x8127), (0xF00F, 0x8006, 0x81F6), (0xF00F, 0x800E, 0x849E),
      (0xF000, 0xC000, 0xC10F), (0xF000, 0xA000, 0xA300), (0xF0FF, 0xF029, 0xF029), (0xF0FF, 0xF01E, 0xF21E)] ++
     [(0xF0FF, 0xF033, 0xF533), (0xF0FF, 0xF055, 0xF155), (0xF0FF, 0xF065, 0xF265), (0xFFFF, 0x00E0, 0x00E0),
      (0xF000, 0xD000, 0xD12F), (0xF0FF, 0xE09E, 0xE59E), (0xF0FF, 0xE0A1, 0xE5A1), (0xF0FF, 0xF00A, 0xF30A),
      (0xF0FF, 0xF007, 0xF207), (0xF0FF, 0xF015, 0xF115), (0xF0FF, 0xF018, 0xF118)] : List (Word × Word × Word)).all
      (fun r => r.2.2 &&& r.1 == r.2.1) = true := by decide

theorem witness_DecodeEncodeRoundTrip :
    Instr.wellFormed (.sys 0xFFF) = true ∧ Instr.wellFormed (.drw 15 0 15) = true ∧ Instr.inTimerKeyGroup (.drw 15 0 15) = false ∧
    Instr.wellFormed (.ldVxK 15) = true ∧ Instr.inTimerKeyGroup (.ldVxK 15) = true := by decide

theorem witness_DecodedWordIsTheEncodedWord :
    decode .standard 0x0000 = .ok (.sys 0x000) ∧ decode .standard 0xFF65 = .ok (.ldVxMem 15) ∧
    decode .standard 0x84FE = .ok (.shl 4) ∧ decode .standard 0x84F6 = .ok (.shr 4) := by decide

theorem witness_UnknownWordsAreTheListedSpaces :
    decode .standard 0x500F = .error (.unknownOpcode 0x500F) ∧ decode .standard 0xFF66 = .error (.unknownOpcode 0xFF66) ∧
    decode .absent 0xEF9E = .error (.unknownOpcode 0xEF9E) ∧ decode .absent 0xF018 = .error (.unknownOpcode 0xF018) := by decide

theorem witness_FirstMatchDecidesAndOnlyClsRetOverlap :
    ((dispatchTable .standard)[0]?.map fun r => (r.accepts 0x00E0, r.accepts 0x00EE)) = some (true, false) ∧
    ((dispatchTable .standard)[1]?.map fun r => (r.accepts 0x00E0, r.accepts 0x00EE)) = some (false, true) ∧
    ((dispatchTable .standard)[2]?.map fun r => (r.accepts 0x00E0, r.accepts 0x00EE)) = some (true, true) ∧
    ((dispatchTable .absent)[28]?.map fun r => r.accepts 0xFF65) = some true ∧
    ((dispatchTable .absent).take 28).all (fun r => !r.accepts 0xFF65) = true := by decide

theorem witness_StepRunsTheDecodedInstruction :
    AboutToRun (ready 0xF30A) 0xF30A ∧ decode (ready 0xF30A).params.timerKeyOps 0xF30A = .ok (.ldVxK 3) ∧
    AboutToRun { ready 0x6001 with pc := 0xFFE, mem := [(0xFFE, 0x60), (0xFFF, 0x01)] } 0x6001 :=
  ⟨ready_runs 0xF30A (by decide), by decide, rfl, rfl, by decide, by decide⟩

/-- A machine whose next operation is the host's `Step` with key 1 pressed. -/
def hostStep (s : State) : State := { s with pending := [.step 0x0002, .timerTick] }

theorem hostStep_begins (s : State) : StepBegins (hostStep s) { s with keys := 0x0002, pending := [.timerTick] } :=
  .inr ⟨_, _, rfl, rfl⟩

-- pc = 0xFFE, and pc = 0xFFF in a Step of either form
theorem witness_FetchIsBigEndianAndFaultsAtTheEnd :
    ({ State.reset with pc := 0xFFE } : State).pc.toNat < 0xFFF ∧
    (StepBegins { State.reset with pc := 0xFFF } { State.reset with pc := 0xFFF } ∧ Running { State.reset with pc := 0xFFF }) ∧
    (∃ u, StepBegins (hostStep { State.reset with pc := 0xFFF }) u ∧ Running (hostStep { State.reset with pc := 0xFFF }) ∧
      (hostStep { State.reset with pc := 0xFFF }).pc = 0xFFF) :=
  ⟨by decide, ⟨.inl ⟨rfl, rfl⟩, rfl⟩, _, hostStep_begins _, rfl, rfl⟩

theorem witness_UnknownOpcodeIsReported :
    (StepBegins (ready 0x5121) (ready 0x5121) ∧ FetchesWord (ready 0x5121) 0x5121 ∧
      decode (ready 0x5121).params.timerKeyOps 0x5121 = .error (.unknownOpcode 0x5121)) ∧
    (∃ u, StepBegins (hostStep (ready 0x5121)) u ∧ FetchesWord (hostStep (ready 0x5121)) 0x5121) :=
  ⟨⟨.inl ⟨rfl, rfl⟩, (ready_runs 0x5121 (by decide)).2, by decide⟩, _, hostStep_begins _, rfl, by decide, by decide⟩

/-- A halted machine. -/
def halted : State := { State.reset with started := true, fault := some ⟨.stackUnderflow, some 0x00EE, 0x200, none⟩ }

theorem witness_HaltedMachineNeverChanges :
    halted.fault ≠ none ∧ halted.started = true ∧ halted.pending = [] ∧
    ∃ t, Host.Core.run core 3 { halted with pending := [.step 1, .timerTick] } = .next t :=
  ⟨by decide, rfl, rfl, _, rfl⟩

theorem witness_StepSetsStarted :
    (StepBegins State.reset State.reset ∧ Running State.reset ∧ ∃ t, step State.reset = .next t) ∧
    (∃ u t, StepBegins (hostStep State.reset) u ∧ Running (hostStep State.reset) ∧ step (hostStep State.reset) = .next t) ∧
    (halted.started = true ∧ ∃ t, step halted = .next t) :=
  ⟨⟨.inl ⟨rfl, rfl⟩, rfl, _, rfl⟩, ⟨_, _, hostStep_begins _, rfl, rfl⟩, rfl, _, rfl⟩

-- a fault of a handler and of the fetch, in a Step of either form
theorem witness_FaultingStepWritesOnlyTheRecord :
    (∃ t, StepBegins (ready 0x00EE) (ready 0x00EE) ∧ Running (ready 0x00EE) ∧ step (ready 0x00EE) = .next t ∧ t.fault ≠ none) ∧
    (∃ u t, StepBegins (hostStep (ready 0x00EE)) u ∧ Running (hostStep (ready 0x00EE)) ∧
      step (hostStep (ready 0x00EE)) = .next t ∧ t.fault ≠ none) ∧
    (∃ u t, StepBegins (hostStep { State.reset with pc := 0xFFF }) u ∧
      step (hostStep { State.reset with pc := 0xFFF }) = .next t ∧ t.fault ≠ none) :=
  ⟨⟨_, .inl ⟨rfl, rfl⟩, rfl, rfl, by decide⟩, ⟨_, _, hostStep_begins _, rfl, rfl, by decide⟩,
    _, _, hostStep_begins _, rfl, by decide⟩

/-- One state for each kind of fault an instruction raises. -/
theorem witness_OnlyTheNamedInstructionsFault :
    (∃ t, exec (.call 0x300) { State.reset with sp := 16 } = .next t ∧ t.fault.map FaultRecord.kind = some .stackOverflow) ∧
    (∃ t, exec .ret State.reset = .next t ∧ t.fault.map FaultRecord.kind = some .stackUnderflow) ∧
    (∃ t, exec (.drw 0 0 2) { State.reset with i := 0xFFF } = .next t ∧ t.fault.map FaultRecord.kind = some .addressOutOfRange) ∧
    (∃ t, exec (.ldVxMem 1) { State.reset with i := 0xFFF } = .next t ∧ t.fault.map FaultRecord.kind = some .addressOutOfRange) ∧
    (∃ t, exec (.ldB 0) { State.reset with i := 0x04F } = .next t ∧ t.fault.map FaultRecord.kind = some .fontRegionWrite) ∧
    (∃ t, exec (.skp 5) (withRegs [(5, 16)]) = .next t ∧ t.fault.map FaultRecord.kind = some .keyIndexOutOfRange) ∧
    (∃ t, exec (.sys 0) (withParams State.reset .fault .preAdd .fault) = .next t ∧
      t.fault.map FaultRecord.kind = some .sysUnsupported) :=
  ⟨⟨_, rfl, by decide⟩, ⟨_, rfl, by decide⟩, ⟨_, rfl, by decide⟩, ⟨_, rfl, by decide⟩, ⟨_, rfl, by decide⟩, ⟨_, rfl, by decide⟩,
    ⟨_, rfl, by decide⟩⟩

/-- One state for each way pc moves. -/
theorem witness_PcAfterACommittedStep :
    (∃ t, exec .cls { State.reset with pc := 0xFFE } = .next t ∧ t.fault = none ∧ t.pc = 0x000) ∧
    (∃ t, exec (.seImm 0 0) State.reset = .next t ∧ t.fault = none ∧ t.pc = 0x204) ∧
    (∃ t, exec (.ldVxK 0) State.reset = .next t ∧ t.fault = none ∧ t.pc = 0x200) ∧
    (∃ t, exec (.call 0x300) State.reset = .next t ∧ t.fault = none ∧ t.pc = 0x300) ∧
    (∃ t, exec (.jpV0 0xFFF) (withRegs [(0, 1)]) = .next t ∧ t.fault = none ∧ t.pc = 0x000) ∧
    (∃ t, exec .ret { State.reset with sp := 16, stack := State.reset.stack.set 15 0x456 } = .next t ∧ t.fault = none ∧
      t.pc = 0x456) :=
  ⟨⟨_, rfl, by decide⟩, ⟨_, rfl, by decide⟩, ⟨_, rfl, by decide⟩, ⟨_, rfl, by decide⟩, ⟨_, rfl, by decide⟩, ⟨_, rfl, by decide⟩⟩

theorem witness_MemoryStaysCanonical :
    MemoryCanonical { ready 0xF533 with i := 0x300 } ∧ ∃ t, step { ready 0xF533 with i := 0x300 } = .next t ∧ t.mem.length = 2 :=
  ⟨by decide, _, rfl, by decide⟩

theorem witness_FontIsNeverMutated :
    (ready 0xF033).params.fontWrite = .fault ∧ FontIntact { ready 0xF033 with i := 0x04F } ∧
    ∃ t, step { ready 0xF033 with i := 0x04F } = .next t := ⟨rfl, by decide, _, rfl⟩

theorem witness_SinkAlwaysShowsTheBuffer :
    SinkShowsBuffer { ready 0xD011 with i := 0x000 } ∧
    ∃ t, step { ready 0xD011 with i := 0x000 } = .next t ∧ t.disp.cell (0, 0) = true := ⟨rfl, _, rfl, by decide⟩

theorem witness_FaultedMachineHasStarted :
    ((ready 0x00EE).fault ≠ none → (ready 0x00EE).started = true) ∧
    ∃ t, step (ready 0x00EE) = .next t ∧ t.fault ≠ none := ⟨by decide, _, rfl, by decide⟩

theorem witness_EvenTargetsKeepPcEven :
    PcAndReturnsEven { State.reset with sp := 15 } ∧ (∃ t, exec (.call 0x300) { State.reset with sp := 15 } = .next t) ∧
    ((0x300#12).toNat + ((withRegs [(0, 4)]).reg 0).toNat) % 2 = 0 ∧ PcAndReturnsEven (withRegs [(0, 4)]) :=
  ⟨by decide, ⟨_, rfl⟩, by decide, by decide⟩

theorem witness_FlagHasOnlyItsWriters :
    (∃ t, exec (.shl 1) (withRegs [(1, 0x80)]) = .next t ∧ t.reg 15 ≠ (withRegs [(1, 0x80)]).reg 15) ∧
    (∃ t, exec (.addI 1) (withRegs [(15, 5)]) = .next t ∧ t.reg 15 ≠ (withRegs [(15, 5)]).reg 15) ∧
    (∃ t, exec (.ldVxMem 15) { State.reset with i := 0 } = .next t ∧ t.reg 15 ≠ State.reset.reg 15) ∧
    (∃ t, exec (.orReg 15 1) (withRegs [(1, 0x80)]) = .next t ∧ t.reg 15 ≠ (withRegs [(1, 0x80)]).reg 15) :=
  ⟨⟨_, rfl, by decide⟩, ⟨_, rfl, by decide⟩, ⟨_, rfl, by decide⟩, ⟨_, rfl, by decide⟩⟩

theorem witness_StateHasOnlyItsWriters :
    (∃ t, exec (.ldI 0x300) State.reset = .next t ∧ t.i ≠ State.reset.i) ∧
    (∃ t, exec (.call 0x300) State.reset = .next t ∧ t.stack ≠ State.reset.stack ∧ t.sp ≠ State.reset.sp) ∧
    (∃ t, exec (.ldB 1) (withMem [(1, 1)] 0x300 []) = .next t ∧ t.mem ≠ []) ∧
    (∃ t, exec (.drw 0 0 1) State.reset = .next t ∧ t.events ≠ State.reset.events ∧ t.disp.cell (0, 0) = true) ∧
    (∃ t, exec (.ldDtVx 1) (withRegs [(1, 1)]) = .next t ∧ t.dt ≠ State.reset.dt) ∧
    (∃ t, exec (.ldStVx 1) (withRegs [(1, 1)]) = .next t ∧ t.st ≠ State.reset.st) ∧
    (∃ t, exec (.rnd 1 1) State.reset = .next t ∧ t.draws ≠ State.reset.draws) :=
  ⟨⟨_, rfl, by decide⟩, ⟨_, rfl, by decide⟩, ⟨_, rfl, by decide⟩, ⟨_, rfl, by decide⟩, ⟨_, rfl, by decide⟩, ⟨_, rfl, by decide⟩,
    ⟨_, rfl, by decide⟩⟩

theorem witness_OnlyKeyInstructionsReadTheKeys :
    (∀ x, Instr.cls ≠ .skp x ∧ Instr.cls ≠ .sknp x ∧ Instr.cls ≠ .ldVxK x) ∧ ∃ t, exec .cls State.reset = .next t :=
  ⟨by simp, _, rfl⟩

theorem witness_RegisterInterfaceMasksAndChecks :
    (State.reset.writeRegister 15 0x1FF).isOk = true ∧ (State.reset.writeRegister 16 0).isOk = false := by decide

-- the clauses meet at 0x4F and 0x50, and at 0xFFF and 0x1000
theorem witness_MemoryPrimitivesCheckRangeThenFont :
    (0xFFF : Nat) < 0x1000 ∧ (0xFFF : Nat) ≤ 0xFFF ∧ ((0x04F : Nat) ≤ 0x04F ∧ State.reset.params.fontWrite = .fault) ∧
    (0x04F : Nat) < 0x050 ∧ (withParams State.reset .nop .preAdd .write).params.fontWrite = .write := by decide

theorem witness_SysFollowsItsPolicy :
    ((0x00E1#16) &&& 0xF000 = 0x0000 ∧ (0x00E1#16) ≠ 0x00E0 ∧ (0x00E1#16) ≠ 0x00EE) ∧ State.reset.params.sysPolicy = .nop ∧
    (withParams State.reset .fault .preAdd .fault).params.sysPolicy = .fault := by decide

theorem witness_CallPushesTheReturnAddress :
    ({ State.reset with sp := 15 } : State).sp.val < 16 ∧ ({ State.reset with sp := 16 } : State).sp.val = 16 := by decide

theorem witness_ReturnPopsTheTop :
    ({ State.reset with sp := 16 } : State).sp.val = (15 : Fin Config.stackDepth).val + 1 ∧
    ({ State.reset with sp := 1 } : State).sp.val = (0 : Fin Config.stackDepth).val + 1 ∧ State.reset.sp.val = 0 := by decide

theorem witness_ReturnAfterCallResumesAfterIt : ({ State.reset with sp := 15 } : State).sp.val < 16 := by decide

theorem witness_CallToItselfOverflowsOnThe17th :
    AboutToRun (ready 0x2200) (encode (.call (ready 0x2200).pc)) ∧ (ready 0x2200).sp.val = 0 :=
  ⟨⟨rfl, rfl, by decide, by decide⟩, rfl⟩

theorem witness_JumpToItselfIdles : AboutToRun (ready 0x1200) (encode (.jp (ready 0x1200).pc)) := ⟨rfl, rfl, by decide, by decide⟩

theorem witness_FontAddressReadsTheGlyph :
    FontIntact (withRegs [(3, 15)]) ∧ ((withRegs [(3, 15)]).reg 3).toNat ≤ 15 ∧ ((withRegs [(3, 15)]).reg 3).toNat * 5 + 4 < 80 := by
  decide

theorem witness_AddToIndexWritesFlagByParameter :
    State.reset.params.addIFlag = .preAdd ∧ (withParams State.reset .nop .sumOverflow .fault).params.addIFlag = .sumOverflow := by
  decide

-- the clauses meet at I = 0x4F and 0x50, and at 0xFFD and 0xFFE
theorem witness_BcdStoresThreeDigitsOrFaults :
    (State.reset.params.fontWrite = .fault ∧ ({ State.reset with i := 0x04F } : State).i.toNat ≤ 0x4F) ∧
    0xFFE ≤ ({ State.reset with i := 0xFFE } : State).i.toNat ∧
    (({ State.reset with i := 0xFFD } : State).i.toNat < 0xFFE ∧ 0x4F < ({ State.reset with i := 0x050 } : State).i.toNat) ∧
    (withParams State.reset .nop .preAdd .write).params.fontWrite = .write := by decide

-- the clauses meet at I + x = 0xFFF and 0x1000
theorem witness_StoreRegistersOrFaults :
    (State.reset.params.fontWrite = .fault ∧ ({ State.reset with i := 0x04F } : State).i.toNat ≤ 0x4F) ∧
    0xFFF < ({ State.reset with i := 0xFF1 } : State).i.toNat + (15 : Nib).val ∧
    (({ State.reset with i := 0xFF0 } : State).i.toNat + (15 : Nib).val ≤ 0xFFF ∧
      0x4F < ({ State.reset with i := 0x050 } : State).i.toNat) ∧
    (withParams State.reset .nop .preAdd .write).params.fontWrite = .write := by decide

theorem witness_LoadRegistersOrFaults :
    0xFFF < ({ State.reset with i := 0xFF1 } : State).i.toNat + (15 : Nib).val ∧
    ({ State.reset with i := 0xFF0 } : State).i.toNat + (15 : Nib).val ≤ 0xFFF := by decide

theorem witness_StoredWordIsFetchedNext :
    ∃ t, exec (.ldMemVx 1) { State.reset with i := 0x202 } = .next t ∧ Running t ∧ Running { State.reset with i := 0x202 } ∧
      ({ State.reset with i := 0x202 } : State).i.toNat = State.reset.pc.toNat + 2 := ⟨_, rfl, by decide⟩

theorem witness_CanonicalMemoryIsUnique :
    (State.reset.storeByte 0x300 5).mem.wf Config.font ∧ ((State.reset.storeByte 0x300 4).storeByte 0x300 5).mem.wf Config.font ∧
    (State.reset.storeByte 0x300 5).byteAt 0x300 = ((State.reset.storeByte 0x300 4).storeByte 0x300 5).byteAt 0x300 := by decide

/-- A sprite with one 1 bit. -/
def dot : State := withMem [] 0x300 [(0x300, 0x80)]

theorem dot_lights : SpriteLights dot 0 0 1 (0, 0) := ⟨0, 0, by decide, by decide, by decide, by decide, by decide⟩

-- the range clauses meet at I + n = 0x1000 and 0x1001; the two collision clauses on a cell that is on and on an all-off display
theorem witness_DrawFlipsExactlyTheSpriteCells :
    0x1000 < ({ State.reset with i := 0xFF2 } : State).i.toNat + (15 : Nib).val ∧
    ({ State.reset with i := 0xFF1 } : State).i.toNat + (15 : Nib).val ≤ 0x1000 ∧
    (SpriteLights { dot with disp := Display.blank.setCell (0, 0) true } 0 0 1 (0, 0) ∧
      (Display.blank.setCell (0, 0) true).cell (0, 0) = true) ∧
    (SpriteLights dot 0 0 1 (0, 0) ∧ ∀ c, dot.disp.cell c = false) :=
  ⟨by decide, by decide, ⟨dot_lights, by decide⟩, dot_lights, Display.cell_blank⟩

-- a sprite cell that starts off, one that starts on (the only one), and x = 15 with VF loaded again between the draws
theorem witness_DrawingTwiceRestoresTheBuffer :
    (dot.i.toNat + (1 : Nib).val ≤ 0x1000 ∧ SpriteLights dot 0 0 1 (0, 0) ∧ dot.disp.cell (0, 0) = false) ∧
    (∀ c, SpriteLights { dot with disp := Display.blank.setCell (0, 0) true } 0 0 1 c →
      (Display.blank.setCell (0, 0) true).cell c = true) ∧
    (∃ t, exec (.drw 15 0 1) (dot.setVF 5) = .next t ∧ t.reg 15 ≠ (dot.setVF 5).reg 15 ∧ (t.setVF 5).disp = t.disp ∧
      (t.setVF 5).reg 15 = (dot.setVF 5).reg 15 ∧ (t.setVF 5).i = dot.i ∧ (t.setVF 5).byteAt 0x300 = dot.byteAt 0x300) := by
  refine ⟨⟨by decide, dot_lights, by decide⟩, ?_, _, rfl, by decide, rfl, by decide, rfl, by decide⟩
  rintro c ⟨r, b, hr, hb, hbit, hx, hy⟩
  have hr : r = 0 := Nat.lt_one_iff.mp hr
  subst hr
  have hb : b = 0 := by
    have : ∀ b, b < 8 → (0x80#8).getLsbD (7 - b) = true → b = 0 := by decide
    exact this b hb hbit
  subst hb
  have hc : c = (0, 0) := Prod.ext (Fin.ext hx) (Fin.ext hy)
  subst hc
  decide

theorem witness_DrawingTwiceFromAllOff :
    (∀ c, dot.disp.cell c = false) ∧ dot.i.toNat + (1 : Nib).val ≤ 0x1000 ∧ (0 : Nib) ≠ 15 ∧
    ∃ r b, r < (1 : Nib).val ∧ b < 8 ∧ (dot.byteAt (dot.i.toNat + r)).getLsbD b = true :=
  ⟨Display.cell_blank, by decide, by decide, 0, 7, by decide, by decide, by decide⟩

theorem witness_DrawEmitsOneEventPerBit : ({ State.reset with i := 0xFF1 } : State).i.toNat + (15 : Nib).val ≤ 0x1000 := by decide

theorem witness_KeySkipsFollowTheSample :
    ((withRegs [(5, 15)]).reg 5).toNat ≤ 15 ∧ 15 < ((withRegs [(5, 16)]).reg 5).toNat := by decide

theorem witness_WaitForKeyTakesAPressedKey : State.reset.keys = 0 ∧ ({ State.reset with keys := 0x8000 } : State).keys ≠ 0 := by decide

theorem witness_TickCountsTheTimersDown :
    ({ State.reset with pending := [.timerTick] } : State).pending = .timerTick :: [] ∧ Running State.reset ∧
    State.reset.params.timerKeyOps = .standard ∧ halted.fault ≠ none ∧
    ({ State.reset with params := { State.reset.params with timerKeyOps := .absent } } : State).params.timerKeyOps = .absent := by
  decide

-- the clauses meet at 3584 and 3585 bytes
theorem witness_LoadProgramCopiesOrRefuses (b : Byte) :
    (State.reset.started = false ∧ (List.replicate 3584 b).length ≤ 3584) ∧ halted.started = true ∧
    3584 < (List.replicate 3585 b).length := ⟨⟨rfl, by rw [List.length_replicate]⟩, rfl, by rw [List.length_replicate]; omega⟩

end Sys2Proof.Tests
end

/-! # The statements of 10_state: the register interface, the font address, and the writers of each kind of state

Each writer statement is read off `exec_effect`: one lemma per field goes through the arms of `Effect` and says in which of them the
field can differ. -/

section
namespace Sys2Proof.Machine

/-! ## The register interface -/

section
variable (s : State) {n : Nat}

theorem State.readRegister_of_lt (h : n < 16) : s.readRegister n = .ok (s.reg ⟨n, h⟩) := dif_pos h

theorem State.readRegister_of_not_lt (h : ¬ n < 16) : s.readRegister n = .error ⟨.unknownRegister, some (.index n)⟩ := dif_neg h

theorem State.writeRegister_of_lt (val : Nat) (h : n < 16) : s.writeRegister n val = .ok (s.setV ⟨n, h⟩ val) := dif_pos h

theorem State.writeRegister_of_not_lt (val : Nat) (h : ¬ n < 16) :
    s.writeRegister n val = .error ⟨.unknownRegister, some (.index n)⟩ := dif_neg h

theorem State.readRegister_setV_same (val : Nat) (h : n < 16) :
    (s.setV ⟨n, h⟩ val).readRegister n = .ok (BitVec.ofNat 8 val) := by
  rw [State.readRegister_of_lt _ h, State.reg_setV, if_pos rfl]

theorem State.readRegister_setV_of_ne (val : Nat) (h : n < 16) {m : Nat} (hm : m ≠ n) :
    (s.setV ⟨n, h⟩ val).readRegister m = s.readRegister m := by
  by_cases hm16 : m < 16
  · rw [State.readRegister_of_lt _ hm16, State.readRegister_of_lt _ hm16, State.reg_setV, if_neg (mt Fin.mk.inj hm)]
  · rw [State.readRegister_of_not_lt _ hm16, State.readRegister_of_not_lt _ hm16]

end

/-! ## The address of a glyph -/

theorem exec_ldF (s : State) (x : Nib) :
    exec (.ldF x) s = .next { s.setI ((s.reg x).toNat * 5) with pc := s.pc + 2 } :=
  complete_advance (encode (.ldF x)) s (s.setI ((s.reg x).toNat * Config.glyphBytes))

/-- Five times any byte fits `I`: the mask of the write to `I` never bites. -/
theorem toNat_ofNat_mul_five (v : Byte) : (BitVec.ofNat 12 (v.toNat * 5)).toNat = v.toNat * 5 := by
  have := v.isLt
  rw [BitVec.toNat_ofNat]
  exact Nat.mod_eq_of_lt (by omega)

/-! ## A run of register loads leaves the rest of the state -/

section
variable (s : State) (a : Nat) (bytes : List Byte)

@[simp] theorem State.setRegsFrom_i : (s.setRegsFrom a bytes).i = s.i := by rw [State.setRegsFrom_frame]
@[simp] theorem State.setRegsFrom_stack : (s.setRegsFrom a bytes).stack = s.stack := by rw [State.setRegsFrom_frame]
@[simp] theorem State.setRegsFrom_sp : (s.setRegsFrom a bytes).sp = s.sp := by rw [State.setRegsFrom_frame]
@[simp] theorem State.setRegsFrom_mem : (s.setRegsFrom a bytes).mem = s.mem := by rw [State.setRegsFrom_frame]
@[simp] theorem State.setRegsFrom_disp : (s.setRegsFrom a bytes).disp = s.disp := by rw [State.setRegsFrom_frame]
@[simp] theorem State.setRegsFrom_events : (s.setRegsFrom a bytes).events = s.events := by rw [State.setRegsFrom_frame]
@[simp] theorem State.setRegsFrom_dt : (s.setRegsFrom a bytes).dt = s.dt := by rw [State.setRegsFrom_frame]
@[simp] theorem State.setRegsFrom_st : (s.setRegsFrom a bytes).st = s.st := by rw [State.setRegsFrom_frame]
@[simp] theorem State.setRegsFrom_draws : (s.setRegsFrom a bytes).draws = s.draws := by rw [State.setRegsFrom_frame]
@[simp] theorem State.setRegsFrom_keys : (s.setRegsFrom a bytes).keys = s.keys := by rw [State.setRegsFrom_frame]
@[simp] theorem State.setRegsFrom_pending : (s.setRegsFrom a bytes).pending = s.pending := by rw [State.setRegsFrom_frame]
@[simp] theorem State.setRegsFrom_loadReplies : (s.setRegsFrom a bytes).loadReplies = s.loadReplies := by rw [State.setRegsFrom_frame]
@[simp] theorem State.setRegsFrom_params : (s.setRegsFrom a bytes).params = s.params := by rw [State.setRegsFrom_frame]

end

/-! ## Which register a change of VF comes from -/

theorem State.eq_vf_of_setV_changes_vf {s : State} {x : Nib} {b : Nat} (h : (s.setV x b).reg 15 ≠ s.reg 15) : x = 15 := by
  by_contra hx
  exact h (s.setV_vf x hx b)

/-- Loading V0 to Vx reaches VF only when x is 15. -/
theorem State.eq_vf_of_setRegsFrom_changes_vf {s : State} {x : Nib} {bytes : List Byte} (hb : bytes.length = x.val + 1)
    (h : (s.setRegsFrom 0 bytes).reg 15 ≠ s.reg 15) : x = 15 := by
  by_contra hx
  have hlt : x.val < 15 := by
    have := x.isLt
    have : x.val ≠ 15 := fun h => hx (Fin.ext h)
    omega
  refine h ?_
  rw [State.reg_setRegsFrom bytes s 0 (by omega), if_neg]
  have : (15 : Nib).val = 15 := rfl
  omega

/-! ## The writers of each field

In an arm of `Effect` that does not write the field, the new field is the old one by definition; only the loop of `LD Vx, [I]` needs
its frame lemma. -/

section
variable {s t : State} {i : Instr}

theorem Effect.i_writers (h : Effect s i t) (hne : t.i ≠ s.i) : (∃ nnn, i = .ldI nnn) ∨ ∃ x, i = .addI x ∨ i = .ldF x := by
  cases h with
  | index i n h => exact h.imp_right fun ⟨x, hx⟩ => ⟨x, .inr hx⟩
  | addI x => exact .inr ⟨x, .inl rfl⟩
  | load => exact absurd (s.setRegsFrom_i 0 _) hne
  | _ => exact absurd rfl hne

theorem Effect.stack_writers (h : Effect s i t) (hne : t.stack ≠ s.stack) : ∃ nnn, i = .call nnn := by
  cases h with
  | call nnn => exact ⟨nnn, rfl⟩
  | load => exact absurd (s.setRegsFrom_stack 0 _) hne
  | _ => exact absurd rfl hne

theorem Effect.sp_writers (h : Effect s i t) (hne : t.sp ≠ s.sp) : i = .ret ∨ ∃ nnn, i = .call nnn := by
  cases h with
  | ret => exact .inl rfl
  | call nnn => exact .inr ⟨nnn, rfl⟩
  | load => exact absurd (s.setRegsFrom_sp 0 _) hne
  | _ => exact absurd rfl hne

theorem Effect.mem_writers (h : Effect s i t) (hne : t.mem ≠ s.mem) : ∃ x, i = .ldB x ∨ i = .ldMemVx x := by
  cases h with
  | store i bytes h => exact h
  | load => exact absurd (s.setRegsFrom_mem 0 _) hne
  | _ => exact absurd rfl hne

theorem Effect.disp_writers (h : Effect s i t) (hne : t.disp ≠ s.disp) : i = .cls ∨ ∃ x y n, i = .drw x y n := by
  cases h with
  | cls => exact .inl rfl
  | drw x y n => exact .inr ⟨x, y, n, rfl⟩
  | load => exact absurd (s.setRegsFrom_disp 0 _) hne
  | _ => exact absurd rfl hne

theorem Effect.events_writers (h : Effect s i t) (hne : t.events ≠ s.events) : i = .cls ∨ ∃ x y n, i = .drw x y n := by
  cases h with
  | cls => exact .inl rfl
  | drw x y n => exact .inr ⟨x, y, n, rfl⟩
  | load => exact absurd (s.setRegsFrom_events 0 _) hne
  | _ => exact absurd rfl hne

theorem Effect.dt_writers (h : Effect s i t) (hne : t.dt ≠ s.dt) : ∃ x, i = .ldDtVx x := by
  cases h with
  | setDt x => exact ⟨x, rfl⟩
  | load => exact absurd (s.setRegsFrom_dt 0 _) hne
  | _ => exact absurd rfl hne

theorem Effect.st_writers (h : Effect s i t) (hne : t.st ≠ s.st) : ∃ x, i = .ldStVx x := by
  cases h with
  | setSt x => exact ⟨x, rfl⟩
  | load => exact absurd (s.setRegsFrom_st 0 _) hne
  | _ => exact absurd rfl hne

theorem Effect.draws_writers (h : Effect s i t) (hne : t.draws ≠ s.draws) :
    (∃ x kk, i = .rnd x kk) ∨ ∃ x, i = .ldVxK x := by
  cases h with
  | drawn i x b h => exact h.imp (⟨x, ·⟩) (⟨x, ·⟩)
  | load => exact absurd (s.setRegsFrom_draws 0 _) hne
  | _ => exact absurd rfl hne

/-- The key sample, the queue, the replies and the parameters are read, never written. -/
theorem Effect.inputs_unchanged (h : Effect s i t) :
    t.keys = s.keys ∧ t.pending = s.pending ∧ t.loadReplies = s.loadReplies ∧ t.params = s.params := by
  cases h with
  | load => exact ⟨s.setRegsFrom_keys 0 _, s.setRegsFrom_pending 0 _, s.setRegsFrom_loadReplies 0 _, s.setRegsFrom_params 0 _⟩
  | _ => exact ⟨rfl, rfl, rfl, rfl⟩

end

end Sys2Proof.Machine

namespace Sys2Proof.Proofs
open Sys2Proof.Machine Sys2Proof.Safety

/-- Settles O25: both operations test the index, and a write seen through `readRegister` is a write seen through `reg`. -/
theorem registerInterfaceMasksAndChecks : Obligations.RegisterInterfaceMasksAndChecks := by
  intro s n val
  refine ⟨fun h => ⟨s.setV ⟨n, h⟩ val, BitVec.ofNat 8 val, ?_⟩, fun h => ?_⟩
  · exact ⟨s.writeRegister_of_lt val h, s.readRegister_setV_same val h, BitVec.toNat_ofNat val 8,
      fun m hm => s.readRegister_setV_of_ne val h hm, rfl⟩
  · exact ⟨s.readRegister_of_not_lt (by omega), s.writeRegister_of_not_lt val (by omega)⟩

/-- Settles O42: LD F moves I to five times Vx and leaves memory, where the font is. -/
theorem fontAddressReadsTheGlyph : Obligations.FontAddressReadsTheGlyph := by
  intro s x hfont _
  refine ⟨_, exec_ldF s x, fun r h _ => ?_⟩
  have hi : (s.setI ((s.reg x).toNat * 5)).i.toNat = (s.reg x).toNat * 5 := toNat_ofNat_mul_five (s.reg x)
  rw [hi]
  exact hfont _ h

/-- Settles O23, a field at a time. -/
theorem stateHasOnlyItsWriters : Obligations.StateHasOnlyItsWriters := by
  intro i s t h
  have he := exec_effect i s t h
  exact ⟨he.i_writers, he.stack_writers, he.sp_writers, he.mem_writers, he.disp_writers, he.events_writers, he.dt_writers,
    he.st_writers, he.draws_writers, he.inputs_unchanged⟩

/-- Settles O22: an arm of `Effect` that writes the flag is one of the flag instructions'; one that writes Vx and no flag changes VF
only when x is 15. -/
theorem flagHasOnlyItsWriters : Obligations.FlagHasOnlyItsWriters := by
  intro i s t hexec hne
  cases exec_effect i s t hexec with
  | vxFlag i x b f hi => rcases hi with ⟨y, rfl | rfl | rfl⟩ | rfl | rfl <;> simp
  | addI x => simp
  | drw x y n => simp
  | vx i x b hi =>
    obtain rfl := State.eq_vf_of_setV_changes_vf hne
    rcases hi with ⟨kk, rfl | rfl⟩ | ⟨y, rfl | rfl | rfl | rfl⟩ | rfl <;> simp
  | drawn i x b hi =>
    obtain rfl := State.eq_vf_of_setV_changes_vf hne
    rcases hi with ⟨kk, rfl⟩ | rfl <;> simp
  | load x bytes hb =>
    obtain rfl := State.eq_vf_of_setRegsFrom_changes_vf hb hne
    simp
  | _ => exact absurd rfl hne

end Sys2Proof.Proofs
end

/-! # The statements of 20_memory: the byte primitives, canonical memory, the font region, even addresses, self-modifying code

What a machine step does to memory is said once (`step_memoryStep`): it keeps it, or stores one run of bytes where 20_memory R54 allows.
Both memory invariants are read off that. -/

section
namespace Sys2Proof.Machine

/-! ## What a step does to memory -/

/-- What a machine step can do to memory: keep it, or store one run of bytes inside 0x000–0xFFF and, under `P_FONT_WRITE = fault`, above
the font region (20_memory R53, R54). The parameters stay (log 4). -/
def MemoryStep (s t : State) : Prop :=
  t.params = s.params ∧
  (t.mem = s.mem ∨
    ∃ a bytes, a + bytes.length ≤ Config.memSize ∧ (s.params.fontWrite = .write ∨ 0x4F < a) ∧
      t.mem = s.mem.writeList s.params.font a bytes)

theorem MemoryStep.of_keeps {s t : State} (hmem : t.mem = s.mem) (hparams : t.params = s.params) : MemoryStep s t :=
  ⟨hparams, .inl hmem⟩

theorem MemoryStep.of_stores {s t : State} (a : Nat) (bytes : List Byte) (hrange : a + bytes.length ≤ Config.memSize)
    (hfont : s.params.fontWrite = .write ∨ 0x4F < a) (hmem : t.mem = s.mem.writeList s.params.font a bytes)
    (hparams : t.params = s.params) : MemoryStep s t :=
  ⟨hparams, .inr ⟨a, bytes, hrange, hfont, hmem⟩⟩

theorem Effect.memoryStep {s t : State} {i : Instr} (h : Effect s i t) : MemoryStep s t := by
  cases h with
  | store i bytes _ hrange hfont => exact .of_stores _ bytes hrange hfont rfl rfl
  | load => exact .of_keeps (s.setRegsFrom_mem 0 _) (s.setRegsFrom_params 0 _)
  | _ => exact .of_keeps rfl rfl

/-- Besides the instructions only `LoadProgram` stores: at most 3584 bytes from 0x200 on (70_reset R283). -/
theorem step_memoryStep (s t : State) (h : step s = .next t) : MemoryStep s t := by
  refine step_induction MemoryStep ?queue ?keys ?load ?tick ?fault ?exec s t h
  case queue => exact fun _ _ _ => .of_keeps rfl rfl
  case keys => exact fun _ _ _ _ h => h
  case load =>
    intro s bytes rest replies hlen
    have hrange : Config.loadAddr + bytes.length ≤ Config.memSize := Nat.add_le_add_left hlen Config.loadAddr
    exact .of_stores Config.loadAddr bytes hrange (.inr (by decide)) rfl rfl
  case tick => exact fun _ _ _ _ => .of_keeps rfl rfl
  case fault => exact fun _ _ => .of_keeps rfl rfl
  case exec => exact fun s t i _ hexec => (exec_effect i s.markStarted t hexec).memoryStep

theorem MemoryStep.wf {s t : State} (h : MemoryStep s t) (hs : s.mem.wf s.params.font) : t.mem.wf t.params.font := by
  obtain ⟨hparams, hmem | ⟨a, bytes, hrange, _, hmem⟩⟩ := h <;> rw [hparams, hmem]
  · exact hs
  · exact Memory.wf_writeList _ bytes _ a hrange hs

theorem MemoryStep.byteAt_font {s t : State} (h : MemoryStep s t) (hpolicy : s.params.fontWrite = .fault) {a : Nat}
    (ha : a < Config.fontSize) : t.byteAt a = s.byteAt a := by
  obtain ⟨hparams, hmem | ⟨b, bytes, _, hfont, hmem⟩⟩ := h
  · exact State.byteAt_congr s t hmem hparams a
  · have hab : a < b := lt_of_lt_of_le ha (hfont.resolve_left (by simp [hpolicy]))
    rw [State.byteAt_congr (s.storeBytes b bytes) t hmem hparams, State.byteAt_storeBytes, if_neg (by omega)]

/-! ## Canonical memory is determined by what it reads -/

section
variable {font : Config.Font} {m m' : Memory}

theorem Memory.read_of_mem {c : Host.Cell} (hm : m.Pairwise fun c d => c.1 < d.1) (hc : c ∈ m) : m.read font c.1 = c.2 := by
  induction m with
  | nil => simp at hc
  | cons d m ih =>
    obtain ⟨hd, hm⟩ := List.pairwise_cons.mp hm
    rw [Memory.read_cons]
    rcases List.mem_cons.mp hc with rfl | hc
    · exact if_pos rfl
    · rw [if_neg (hd c hc).ne, ih hm hc]

/-- An address that reads as anything but its reset content is listed, with the byte it reads as. -/
theorem Memory.mem_of_read_ne_initial {a : Nat} (h : m.read font a ≠ Memory.initial font a) : (a, m.read font a) ∈ m := by
  induction m with
  | nil => exact absurd rfl h
  | cons d m ih =>
    rw [Memory.read_cons] at h ⊢
    split at h
    case isTrue hd => simp [← hd]
    case isFalse hd => simpa [hd] using .inr (ih h)

/-- A listed entry differs from its reset content, so a memory that reads the same lists it too. -/
theorem Memory.subset_of_read_eq (hm : m.wf font) (hread : ∀ a, a < Config.memSize → m.read font a = m'.read font a) : m ⊆ m' := by
  intro c hc
  obtain ⟨hrising, hentries⟩ := hm
  obtain ⟨hrange, hne⟩ := hentries c hc
  have hc' : m'.read font c.1 = c.2 := by rw [← hread c.1 hrange, Memory.read_of_mem hrising hc]
  have hlisted := Memory.mem_of_read_ne_initial (m := m') (hc'.trans_ne hne)
  rwa [hc'] at hlisted

/-- Rising lists with the same entries are equal. -/
theorem Memory.eq_of_subset (hm : m.Pairwise fun c d => c.1 < d.1) (hm' : m'.Pairwise fun c d => c.1 < d.1)
    (h : m ⊆ m') (h' : m' ⊆ m) : m = m' := by
  have hnodup : ∀ {l : Memory}, (l.Pairwise fun c d => c.1 < d.1) → l.Nodup := fun hl =>
    hl.imp fun hlt => ne_of_apply_ne Prod.fst hlt.ne
  have hperm : m.Perm m' := (List.perm_ext_iff_of_nodup (hnodup hm) (hnodup hm')).mpr fun c => ⟨@h c, @h' c⟩
  exact hperm.eq_of_pairwise (fun c d _ _ hcd hdc => absurd hcd hdc.asymm) hm hm'

end

/-! ## Parity of addresses -/

theorem toNat_ofNat_even {n : Nat} (h : n % 2 = 0) : (BitVec.ofNat 12 n).toNat % 2 = 0 := by
  rw [BitVec.toNat_ofNat]
  omega

/-- Moving an even address by an even distance, across the end of the address space too. -/
theorem toNat_add_even {a d : Addr} (ha : a.toNat % 2 = 0) (hd : d.toNat % 2 = 0) : (a + d).toNat % 2 = 0 := by
  rw [BitVec.toNat_add]
  omega

/-! ## Stores of a handler that did not fault -/

/-- A run of writes that raises nothing stayed inside the address space and stored its bytes. -/
theorem State.writeBytes_eq_ok {s u : State} {a : Nat} {bytes : List Byte} (ha : a ≤ 0x1000) (hb : bytes ≠ [])
    (h : s.writeBytes a bytes = .ok u) : a + bytes.length ≤ 0x1000 ∧ u = s.storeBytes a bytes := by
  rcases s.writeBytes_cases a bytes ha hb with ⟨hrange, _, he⟩ | ⟨_, _, he⟩ | ⟨_, _, he⟩ <;> rw [he] at h
  · exact ⟨hrange, (Except.ok.inj h).symm⟩
  · cases h
  · cases h

/-- A handler whose accesses may raise, and did not: the machine still runs, advanced. -/
theorem complete_advanceOr_running {w : Word} {s t : State} {e : Except Raise State}
    (h : complete w s (advanceOr e) = .next t) (ht : t.fault = none) : ∃ u, e = .ok u ∧ t = { u with pc := u.pc + 2 } := by
  cases e with
  | ok u =>
    rw [advanceOr, complete_advance] at h
    exact ⟨u, rfl, (Host.Outcome.next.inj h).symm⟩
  | error r =>
    cases h
    cases ht

theorem exec_ldMemVx_running {s t : State} {x : Nib} (h : exec (.ldMemVx x) s = .next t) (ht : t.fault = none) :
    s.i.toNat + x.val + 1 ≤ 0x1000 ∧ t = { s.storeBytes s.i.toNat (s.regsUpTo x) with pc := s.pc + 2 } := by
  obtain ⟨u, hu, rfl⟩ := complete_advanceOr_running h ht
  have hb : s.regsUpTo x ≠ [] := List.ne_nil_of_length_pos (by simp)
  obtain ⟨hrange, rfl⟩ := State.writeBytes_eq_ok s.dataAddr_zero_le hb hu
  rw [State.length_regsUpTo, State.dataAddr_zero] at hrange
  exact ⟨hrange, rfl⟩

/-- Stored registers read back from memory. -/
theorem State.byteAt_storeBytes_regsUpTo (s : State) (a : Nat) {x k : Nib} (h : k ≤ x) :
    (s.storeBytes a (s.regsUpTo x)).byteAt (a + k.val) = s.reg k := by
  have hk : k.val ≤ x.val := h
  rw [State.byteAt_storeBytes, State.length_regsUpTo, if_pos (by omega), Nat.add_sub_cancel_left, State.getD_regsUpTo s x k h]

end Sys2Proof.Machine

namespace Sys2Proof.Safety
open Sys2Proof.Machine

/-- Only pc, the stack and sp count for `PcAndReturnsEven`. -/
theorem PcAndReturnsEven.of_even_pc {s t : State} (h : PcAndReturnsEven s) (hpc : t.pc.toNat % 2 = 0) (hstack : t.stack = s.stack)
    (hsp : t.sp = s.sp) : PcAndReturnsEven t := by
  refine ⟨hpc, fun k hk => ?_⟩
  rw [hsp] at hk
  rw [hstack]
  exact h.2 k hk

/-- CALL: the new entry is the even address after the CALL, the entries below it are as before. -/
theorem PcAndReturnsEven.push {s t : State} (h : PcAndReturnsEven s) (hs : s.sp.val < Config.stackDepth)
    (hpc : t.pc.toNat % 2 = 0) (hstack : t.stack = s.stack.set s.sp.val (s.pc + 2)) (hsp : t.sp.val = s.sp.val + 1) :
    PcAndReturnsEven t := by
  obtain ⟨hspc, hreturns⟩ := h
  refine ⟨hpc, fun k hk => ?_⟩
  rw [hstack, Fin.getElem_fin, Vector.getElem_set]
  split
  case isTrue => exact toNat_add_even hspc rfl
  case isFalse hne => exact hreturns k (by omega)

/-- RET: pc is the top entry, and fewer entries are in use. -/
theorem PcAndReturnsEven.pop {s t : State} (h : PcAndReturnsEven s) {n : Nat} (hn : n < Config.stackDepth) (hs : s.sp.val = n + 1)
    (hpc : t.pc = s.stack[n]) (hstack : t.stack = s.stack) (hsp : t.sp.val = n) : PcAndReturnsEven t := by
  obtain ⟨_, hreturns⟩ := h
  refine ⟨?_, fun k hk => ?_⟩
  · rw [hpc]
    exact hreturns ⟨n, hn⟩ (by simp [hs])
  · rw [hstack]
    exact hreturns k (by omega)

end Sys2Proof.Safety

namespace Sys2Proof.Proofs
open Sys2Proof.Machine Sys2Proof.Safety

/-- Settles O15: a step keeps memory or stores a run of bytes inside the address space, and storing keeps the canonical form. -/
theorem memoryStaysCanonical : Obligations.MemoryStaysCanonical :=
  fun s t hs hstep => (step_memoryStep s t hstep).wf hs

/-- Settles O16: under the policy `fault` whatever a step stores lies above the font region. -/
theorem fontIsNeverMutated : Obligations.FontIsNeverMutated := by
  intro s t hpolicy hfont hstep
  have hmem := step_memoryStep s t hstep
  have hparams : t.params = s.params := hmem.1
  refine ⟨fun a ha => ?_, hparams⟩
  rw [hmem.byteAt_font hpolicy ha, hfont a ha, hparams]

/-- Settles O20: the four instructions that load pc load an even address; every other one moves pc by 0, 2 or 4. -/
theorem evenTargetsKeepPcEven : Obligations.EvenTargetsKeepPcEven := by
  intro i s t heven htarget hV0target hexec
  have hpc : s.pc.toNat % 2 = 0 := heven.1
  cases exec_effect i s t hexec with
  | fault => exact heven
  | wait => exact heven
  | jp nnn => exact heven.of_even_pc (htarget nnn (.inl rfl)) rfl rfl
  | jpV0 nnn => exact heven.of_even_pc (toNat_ofNat_even (hV0target nnn rfl)) rfl rfl
  | call nnn hs => exact heven.push hs (htarget nnn (.inr rfl)) rfl rfl
  | ret n hn hs => exact heven.pop hn hs rfl rfl rfl
  | skip i taken =>
    refine heven.of_even_pc ?_ rfl rfl
    cases taken
    case false => exact toNat_add_even hpc rfl
    case true => exact toNat_add_even hpc rfl
  | load => exact heven.of_even_pc (toNat_add_even hpc rfl) (s.setRegsFrom_stack 0 _) (s.setRegsFrom_sp 0 _)
  | _ => exact heven.of_even_pc (toNat_add_even hpc rfl) rfl rfl

/-- Settles O47: a store that completes stayed below 0x1000, so `pc + 2` does not wrap and is the address of V0's byte. -/
theorem storedWordIsFetchedNext : Obligations.StoredWordIsFetchedNext := by
  intro s t x _ hexec ht hx hi
  obtain ⟨hrange, rfl⟩ := exec_ldMemVx_running hexec ht
  have hpc : (s.pc + 2).toNat = s.i.toNat := by
    rw [BitVec.toNat_add, show (2 : Addr).toNat = 2 from rfl]
    omega
  have hv0 := s.byteAt_storeBytes_regsUpTo s.i.toNat (Fin.zero_le x)
  have hv1 := s.byteAt_storeBytes_regsUpTo (k := 1) s.i.toNat hx
  rw [fetch_ok _ (by simp only [hpc]; omega)]
  simp only [hpc]
  exact congrArg Except.ok (congrArg₂ wordOfBytes hv0 hv1)

/-- Settles O48: the entries of a canonical memory are the addresses that read as something else than their reset content. -/
theorem canonicalMemoryIsUnique : Obligations.CanonicalMemoryIsUnique := by
  intro font m m' hm hm' hread
  have hsub : m ⊆ m' := Memory.subset_of_read_eq hm hread
  have hsub' : m' ⊆ m := Memory.subset_of_read_eq hm' fun a ha => (hread a ha).symm
  exact Memory.eq_of_subset hm.1 hm'.1 hsub hsub'

/-- Settles O26. -/
theorem memoryPrimitivesCheckRangeThenFont : Obligations.MemoryPrimitivesCheckRangeThenFont := by
  intro s a b
  refine ⟨fun ha => ⟨s.memRead_error a ha, s.memWrite_range a b ha⟩, s.memRead_ok a, s.memWrite_font a b, fun ha hfont => ?_⟩
  refine ⟨s.storeByte a b, s.memWrite_ok a b ha hfont, ?_, fun c hc => ?_, rfl⟩
  · rw [State.byteAt_storeByte, if_pos rfl]
  · rw [State.byteAt_storeByte, if_neg hc]

end Sys2Proof.Proofs
end

/-! # The statements of 30_encoding: the decoder against the encoder, the unknown words, and the order of the table

Everything rests on one fact about the dispatch table: outside 0x00E0 and 0x00EE no word is accepted by two of its rows. So the row
that accepts a word is the row the scan finds, for the encoder's words too. -/

section
namespace Sys2Proof

/-! ## The rows of the table -/

theorem mem_dispatchTable {p : Config.TimerKeyOps} {r : Row} : r ∈ dispatchTable p ↔
    r ∈ rowsControl ∨ r ∈ rowsAlu ∨ r ∈ rowsMiddle ∨ (p = .standard ∧ r ∈ rowsTimerKey) ∨ r ∈ rowsIndex := by
  cases p <;> simp [dispatchTable]

theorem mem_standard_of_mem {p : Config.TimerKeyOps} {r : Row} (h : r ∈ dispatchTable p) : r ∈ dispatchTable .standard := by
  rw [mem_dispatchTable] at h ⊢
  exact h.imp_right (.imp_right (.imp_right (.imp_left fun h => ⟨rfl, h.2⟩)))

theorem inTimerKeyGroup_of_mem_rowsTimerKey {r : Row} (h : r ∈ rowsTimerKey) (f : Fields) :
    (r.make f).inTimerKeyGroup = true := by
  revert r
  simp [rowsTimerKey, Instr.inTimerKeyGroup]

theorem mem_absent_of_not_inTimerKeyGroup {r : Row} {f : Fields} (h : r ∈ dispatchTable .standard)
    (hf : (r.make f).inTimerKeyGroup = false) : r ∈ dispatchTable .absent := by
  have hr : r ∉ rowsTimerKey := fun hr => by simp [inTimerKeyGroup_of_mem_rowsTimerKey hr f] at hf
  rw [mem_dispatchTable] at h ⊢
  exact h.imp_right (.imp_right (.imp_right (.imp_left fun h => absurd h.2 hr)))

/-! ## Which rows accept one word -/

/-- The patterns of two rows agree on the bits both masks keep. -/
def Row.mayOverlap (r r' : Row) : Bool := r.pattern &&& r'.mask == r'.pattern &&& r.mask

theorem Row.mayOverlap_of_accepts {r r' : Row} {w : Word} (h : r.accepts w = true) (h' : r'.accepts w = true) :
    r.mayOverlap r' = true := by
  have hr : w &&& r.mask = r.pattern := beq_iff_eq.mp h
  have hr' : w &&& r'.mask = r'.pattern := beq_iff_eq.mp h'
  rw [Row.mayOverlap, beq_iff_eq, ← hr, ← hr', BitVec.and_assoc, BitVec.and_assoc, BitVec.and_comm r.mask]

theorem mayOverlap_standard : ∀ j k : Fin (dispatchTable .standard).length, j < k →
    (dispatchTable .standard)[j].mayOverlap (dispatchTable .standard)[k] = true →
    (j.val = 0 ∨ j.val = 1) ∧ k.val = 2 := by
  decide

/-- 30_encoding R86: the only overlaps are CLS and RET with the row of SYS. -/
theorem overlap_standard {w : Word} {j k : Nat} {r r' : Row} (hj : (dispatchTable .standard)[j]? = some r)
    (hk : (dispatchTable .standard)[k]? = some r') (hjk : j < k) (h : r.accepts w = true) (h' : r'.accepts w = true) :
    (w = 0x00E0 ∧ j = 0 ∧ k = 2) ∨ (w = 0x00EE ∧ j = 1 ∧ k = 2) := by
  obtain ⟨hjlt, rfl⟩ := List.getElem?_eq_some_iff.mp hj
  obtain ⟨hklt, rfl⟩ := List.getElem?_eq_some_iff.mp hk
  obtain ⟨hj01, hk2⟩ := mayOverlap_standard ⟨j, hjlt⟩ ⟨k, hklt⟩ hjk (Row.mayOverlap_of_accepts h h')
  obtain rfl | rfl : j = 0 ∨ j = 1 := hj01
  · exact .inl ⟨(mask_FFFF w).symm.trans (beq_iff_eq.mp h), rfl, hk2⟩
  · exact .inr ⟨(mask_FFFF w).symm.trans (beq_iff_eq.mp h), rfl, hk2⟩

theorem eq_of_accepts {w : Word} {r r' : Row} (hr : r ∈ dispatchTable .standard) (hr' : r' ∈ dispatchTable .standard)
    (h : r.accepts w = true) (h' : r'.accepts w = true) (hcls : w ≠ 0x00E0) (hret : w ≠ 0x00EE) : r = r' := by
  obtain ⟨j, hj⟩ := List.mem_iff_getElem?.mp hr
  obtain ⟨k, hk⟩ := List.mem_iff_getElem?.mp hr'
  have hno {j k : Nat} : ¬ ((w = 0x00E0 ∧ j = 0 ∧ k = 2) ∨ (w = 0x00EE ∧ j = 1 ∧ k = 2)) :=
    not_or.mpr ⟨fun h => hcls h.1, fun h => hret h.1⟩
  obtain hlt | rfl | hlt := lt_trichotomy j k
  · exact absurd (overlap_standard hj hk hlt h h') hno
  · exact Option.some.inj (hj.symm.trans hk)
  · exact absurd (overlap_standard hk hj hlt h' h) hno

/-! ## What the scan answers -/

theorem decode_of_find {p : Config.TimerKeyOps} {w : Word} {r : Row} (h : (dispatchTable p).find? (·.accepts w) = some r) :
    decode p w = .ok (r.make (fieldsOf w)) := by
  simp [decode, h]

theorem accepts_of_find {p : Config.TimerKeyOps} {w : Word} {r : Row}
    (h : (dispatchTable p).find? (·.accepts w) = some r) : r ∈ dispatchTable p ∧ r.accepts w = true :=
  ⟨List.mem_of_find?_eq_some h, List.find?_some (p := fun r : Row => r.accepts w) h⟩

/-- A word that decodes is accepted by a row that makes the instruction of the word's fields. -/
theorem exists_row_of_decode {p : Config.TimerKeyOps} {w : Word} {i : Instr} (h : decode p w = .ok i) :
    ∃ r ∈ dispatchTable p, r.accepts w = true ∧ r.make (fieldsOf w) = i := by
  cases hfind : (dispatchTable p).find? (·.accepts w) with
  | none => simp [decode, hfind] at h
  | some r =>
    obtain ⟨hr, ha⟩ := accepts_of_find hfind
    rw [decode_of_find hfind] at h
    exact ⟨r, hr, ha, Except.ok.inj h⟩

theorem decode_eq_unknownOpcode_iff {p : Config.TimerKeyOps} {w : Word} :
    decode p w = .error (.unknownOpcode w) ↔ ¬ ∃ r ∈ dispatchTable p, r.accepts w = true := by
  rw [← List.find?_isSome]
  cases hfind : (dispatchTable p).find? (·.accepts w) <;> simp [decode, hfind]

theorem decode_cls_word (p : Config.TimerKeyOps) : decode p 0x00E0 = .ok .cls := by cases p <;> rfl

theorem decode_ret_word (p : Config.TimerKeyOps) : decode p 0x00EE = .ok .ret := by cases p <;> rfl

theorem make_of_accepts_cls_word : ∀ r ∈ dispatchTable .standard, r.accepts 0x00E0 = true →
    (r.make (fieldsOf 0x00E0)).wellFormed = true → r.make (fieldsOf 0x00E0) = .cls := by
  decide

theorem make_of_accepts_ret_word : ∀ r ∈ dispatchTable .standard, r.accepts 0x00EE = true →
    (r.make (fieldsOf 0x00EE)).wellFormed = true → r.make (fieldsOf 0x00EE) = .ret := by
  decide

/-- A word decodes to the instruction of any row that accepts it, if that instruction is well-formed: no other row accepts the
word, or it is the word of CLS or RET and well-formedness rules out the row of SYS. -/
theorem decode_of_accepts {p : Config.TimerKeyOps} {w : Word} {r : Row} {i : Instr} (hr : r ∈ dispatchTable p)
    (ha : r.accepts w = true) (hi : r.make (fieldsOf w) = i) (hwf : i.wellFormed = true) : decode p w = .ok i := by
  subst hi
  have hstd := mem_standard_of_mem hr
  by_cases hcls : w = 0x00E0
  · subst hcls
    rw [decode_cls_word, make_of_accepts_cls_word r hstd ha hwf]
  by_cases hret : w = 0x00EE
  · subst hret
    rw [decode_ret_word, make_of_accepts_ret_word r hstd ha hwf]
  obtain ⟨q, hfind⟩ := Option.isSome_iff_exists.mp (List.find?_isSome (p := fun r : Row => r.accepts w).mpr ⟨r, hr, ha⟩)
  obtain ⟨hq, hqa⟩ := accepts_of_find hfind
  rw [decode_of_find hfind, eq_of_accepts (mem_standard_of_mem hq) hstd hqa ha hcls hret]

theorem decodeBytes_of_decode {p : Config.TimerKeyOps} {w : Word} {i : Instr} (h : decode p w = .ok i) (rest : List Byte) :
    decodeBytes p (highByte w :: lowByte w :: rest) = .ok (i, rest) := by
  simp [decodeBytes, h]

/-! ## The encoder's words decode -/

/-- Every well-formed instruction has a row of its own (the family `OwnRow` of Laws/PerInstr.lean, put together). -/
theorem exists_own_row : ∀ i : Instr, Laws.OwnRow.Statement i
  | .cls => Laws.OwnRow.cls
  | .ret => Laws.OwnRow.ret
  | .sys nnn => Laws.OwnRow.sys nnn
  | .jp nnn => Laws.OwnRow.jp nnn
  | .call nnn => Laws.OwnRow.call nnn
  | .seImm x kk => Laws.OwnRow.seImm x kk
  | .sneImm x kk => Laws.OwnRow.sneImm x kk
  | .seReg x y => Laws.OwnRow.seReg x y
  | .ldImm x kk => Laws.OwnRow.ldImm x kk
  | .addImm x kk => Laws.OwnRow.addImm x kk
  | .ldReg x y => Laws.OwnRow.ldReg x y
  | .orReg x y => Laws.OwnRow.orReg x y
  | .andReg x y => Laws.OwnRow.andReg x y
  | .xorReg x y => Laws.OwnRow.xorReg x y
  | .addReg x y => Laws.OwnRow.addReg x y
  | .subReg x y => Laws.OwnRow.subReg x y
  | .shr x => Laws.OwnRow.shr x
  | .subnReg x y => Laws.OwnRow.subnReg x y
  | .shl x => Laws.OwnRow.shl x
  | .sneReg x y => Laws.OwnRow.sneReg x y
  | .ldI nnn => Laws.OwnRow.ldI nnn
  | .jpV0 nnn => Laws.OwnRow.jpV0 nnn
  | .rnd x kk => Laws.OwnRow.rnd x kk
  | .drw x y n => Laws.OwnRow.drw x y n
  | .skp x => Laws.OwnRow.skp x
  | .sknp x => Laws.OwnRow.sknp x
  | .ldVxDt x => Laws.OwnRow.ldVxDt x
  | .ldVxK x => Laws.OwnRow.ldVxK x
  | .ldDtVx x => Laws.OwnRow.ldDtVx x
  | .ldStVx x => Laws.OwnRow.ldStVx x
  | .addI x => Laws.OwnRow.addI x
  | .ldF x => Laws.OwnRow.ldF x
  | .ldB x => Laws.OwnRow.ldB x
  | .ldMemVx x => Laws.OwnRow.ldMemVx x
  | .ldVxMem x => Laws.OwnRow.ldVxMem x

theorem decode_encode {i : Instr} (hwf : i.wellFormed = true) : decode .standard (encode i) = .ok i := by
  obtain ⟨r, hr, ha, hi⟩ := exists_own_row i hwf
  exact decode_of_accepts hr ha hi hwf

theorem decode_absent_encode {i : Instr} (hwf : i.wellFormed = true) (hgroup : i.inTimerKeyGroup = false) :
    decode .absent (encode i) = .ok i := by
  obtain ⟨r, hr, ha, hi⟩ := exists_own_row i hwf
  exact decode_of_accepts (mem_absent_of_not_inTimerKeyGroup hr (hi ▸ hgroup)) ha hi hwf

/-! ## The words that decode are the encoder's

The converses of `fieldsOf_encFA_nnn` and its siblings: a word whose opcode is known is rebuilt from its fields. -/

section
variable {w p : Word} {f : Fields → Instr} {op n : BitVec 4} {kk : Byte}

theorem opcode_of_accepts_F000 (h : Row.accepts ⟨0xF000#16, p, f⟩ w = true) (hp : p.toNat = op.toNat * 4096) :
    w.toNat / 4096 = op.toNat := by
  rw [accepts_F000, decide_eq_true_eq, hp] at h
  exact Nat.eq_of_mul_eq_mul_right (by decide) h

theorem opcode_of_accepts_F00F (h : Row.accepts ⟨0xF00F#16, p, f⟩ w = true) (hp : p.toNat = op.toNat * 4096 + n.toNat) :
    w.toNat / 4096 = op.toNat ∧ w.toNat % 16 = n.toNat := by
  have := n.isLt
  rw [accepts_F00F, decide_eq_true_eq, hp] at h
  omega

theorem opcode_of_accepts_F0FF (h : Row.accepts ⟨0xF0FF#16, p, f⟩ w = true) (hp : p.toNat = op.toNat * 4096 + kk.toNat) :
    w.toNat / 4096 = op.toNat ∧ w.toNat % 256 = kk.toNat := by
  have := kk.isLt
  rw [accepts_F0FF, decide_eq_true_eq, hp] at h
  omega

theorem encFA_fieldsOf (h : w.toNat / 4096 = op.toNat) : encFA op (fieldsOf w).nnn = w := by
  apply BitVec.eq_of_toNat_eq
  rw [encFA_toNat, fieldsOf_nnn_toNat]
  omega

theorem encFXK_fieldsOf (h : w.toNat / 4096 = op.toNat) : encFXK op (fieldsOf w).x (fieldsOf w).kk = w := by
  apply BitVec.eq_of_toNat_eq
  rw [encFXK_toNat, fieldsOf_kk_toNat]
  simp only [fieldsOf, nibbleAt_val]
  omega

theorem encFXYN_fieldsOf (h : w.toNat / 4096 = op.toNat ∧ w.toNat % 16 = n.toNat) :
    encFXYN op (fieldsOf w).x (fieldsOf w).y n = w := by
  apply BitVec.eq_of_toNat_eq
  rw [encFXYN_toNat]
  simp only [fieldsOf, nibbleAt_val]
  omega

end

/-- Clearing the `y` nibble of a word of the format `FX` (R88). -/
theorem mask_FF0F_encFXYN (op : BitVec 4) (x y : Nib) (n : BitVec 4) : encFXYN op x y n &&& 0xFF0F = encFXYN op x 0 n := by
  have hmask : (0xFF0F : Word) = 0xF#4 ++ 0xF#4 ++ 0x0#4 ++ 0xF#4 := by decide
  have hall (b : BitVec 4) : b &&& 0xF#4 = b := BitVec.and_allOnes
  rw [hmask, encFXYN, encFXYN, BitVec.and_append, BitVec.and_append, BitVec.and_append, hall, hall, hall, BitVec.and_zero]
  rfl

/-- The word is the instruction's, but for the ignored `y` of SHR and SHL (R88). -/
def IsWordOf (w : Word) (i : Instr) : Prop :=
  w = encode i ∨ ((∃ x, i = .shr x ∨ i = .shl x) ∧ w &&& 0xFF0F = encode i)

/-- A row accepts only the words of the instructions it makes. -/
def Row.Faithful (r : Row) : Prop := ∀ w, r.accepts w = true → IsWordOf w (r.make (fieldsOf w))

section
variable {p : Word} (op : BitVec 4)

theorem faithful_FA (make : Addr → Instr) (henc : ∀ nnn, encode (make nnn) = encFA op nnn)
    (hp : p.toNat = op.toNat * 4096) : Row.Faithful ⟨0xF000, p, fun f => make f.nnn⟩ := fun _ ha =>
  .inl ((henc _).trans (encFA_fieldsOf (opcode_of_accepts_F000 ha hp))).symm

theorem faithful_FXK (make : Nib → Byte → Instr) (henc : ∀ x kk, encode (make x kk) = encFXK op x kk)
    (hp : p.toNat = op.toNat * 4096) : Row.Faithful ⟨0xF000, p, fun f => make f.x f.kk⟩ := fun _ ha =>
  .inl ((henc _ _).trans (encFXK_fieldsOf (opcode_of_accepts_F000 ha hp))).symm

theorem faithful_FXF (kk : Byte) (make : Nib → Instr) (henc : ∀ x, encode (make x) = encFXK op x kk)
    (hp : p.toNat = op.toNat * 4096 + kk.toNat) : Row.Faithful ⟨0xF0FF, p, fun f => make f.x⟩ := fun w ha => by
  obtain ⟨hop, hkk⟩ := opcode_of_accepts_F0FF ha hp
  have hfield : (fieldsOf w).kk = kk := BitVec.eq_of_toNat_eq ((fieldsOf_kk_toNat w).trans hkk)
  exact .inl ((henc _).trans (hfield ▸ encFXK_fieldsOf hop)).symm

theorem faithful_FXY (n : BitVec 4) (make : Nib → Nib → Instr) (henc : ∀ x y, encode (make x y) = encFXYN op x y n)
    (hp : p.toNat = op.toNat * 4096 + n.toNat) : Row.Faithful ⟨0xF00F, p, fun f => make f.x f.y⟩ := fun _ ha =>
  .inl ((henc _ _).trans (encFXYN_fieldsOf (opcode_of_accepts_F00F ha hp))).symm

theorem faithful_FX (n : BitVec 4) (make : Nib → Instr) (hshift : ∀ x, make x = .shr x ∨ make x = .shl x)
    (henc : ∀ x, encode (make x) = encFXYN op x 0 n) (hp : p.toNat = op.toNat * 4096 + n.toNat) :
    Row.Faithful ⟨0xF00F, p, fun f => make f.x⟩ := fun w ha => by
  have hw : encFXYN op (fieldsOf w).x (fieldsOf w).y n = w := encFXYN_fieldsOf (opcode_of_accepts_F00F ha hp)
  have hmask : w &&& 0xFF0F = encFXYN op (fieldsOf w).x 0 n :=
    (congrArg (· &&& 0xFF0F) hw).symm.trans (mask_FF0F_encFXYN ..)
  exact .inr ⟨⟨_, hshift _⟩, hmask.trans (henc _).symm⟩

end

theorem faithful_F0 (i : Instr) : Row.Faithful ⟨0xFFFF, encode i, fun _ => i⟩ := fun w ha =>
  .inl ((mask_FFFF w).symm.trans (beq_iff_eq.mp ha))

theorem faithful_drw : Row.Faithful ⟨0xF000, 0xD000, fun f => .drw f.x f.y f.n⟩ := fun w ha => by
  have hn : w.toNat % 16 = (nibbleBits (fieldsOf w).n).toNat := by
    simp [fieldsOf, nibbleAt_val]
  exact .inl (encFXYN_fieldsOf (op := 0xD) ⟨opcode_of_accepts_F000 ha rfl, hn⟩).symm

theorem faithful_rowsControl : ∀ r ∈ rowsControl, r.Faithful := by
  simp only [rowsControl, List.forall_mem_cons]
  exact ⟨faithful_F0 .cls, faithful_F0 .ret, faithful_FA 0x0 .sys (fun _ => rfl) rfl, faithful_FA 0x1 .jp (fun _ => rfl) rfl,
    faithful_FA 0x2 .call (fun _ => rfl) rfl, faithful_FXK 0x3 .seImm (fun _ _ => rfl) rfl,
    faithful_FXK 0x4 .sneImm (fun _ _ => rfl) rfl, faithful_FXY 0x5 0x0 .seReg (fun _ _ => rfl) rfl,
    faithful_FXK 0x6 .ldImm (fun _ _ => rfl) rfl, faithful_FXK 0x7 .addImm (fun _ _ => rfl) rfl, List.forall_mem_nil _⟩

theorem faithful_rowsAlu : ∀ r ∈ rowsAlu, r.Faithful := by
  simp only [rowsAlu, List.forall_mem_cons]
  exact ⟨faithful_FXY 0x8 0x0 .ldReg (fun _ _ => rfl) rfl, faithful_FXY 0x8 0x1 .orReg (fun _ _ => rfl) rfl,
    faithful_FXY 0x8 0x2 .andReg (fun _ _ => rfl) rfl, faithful_FXY 0x8 0x3 .xorReg (fun _ _ => rfl) rfl,
    faithful_FXY 0x8 0x4 .addReg (fun _ _ => rfl) rfl, faithful_FXY 0x8 0x5 .subReg (fun _ _ => rfl) rfl,
    faithful_FX 0x8 0x6 .shr (fun _ => .inl rfl) (fun _ => rfl) rfl, faithful_FXY 0x8 0x7 .subnReg (fun _ _ => rfl) rfl,
    faithful_FX 0x8 0xE .shl (fun _ => .inr rfl) (fun _ => rfl) rfl, List.forall_mem_nil _⟩

theorem faithful_rowsMiddle : ∀ r ∈ rowsMiddle, r.Faithful := by
  simp only [rowsMiddle, List.forall_mem_cons]
  exact ⟨faithful_FXY 0x9 0x0 .sneReg (fun _ _ => rfl) rfl, faithful_FA 0xA .ldI (fun _ => rfl) rfl,
    faithful_FA 0xB .jpV0 (fun _ => rfl) rfl, faithful_FXK 0xC .rnd (fun _ _ => rfl) rfl, faithful_drw, List.forall_mem_nil _⟩

theorem faithful_rowsTimerKey : ∀ r ∈ rowsTimerKey, r.Faithful := by
  simp only [rowsTimerKey, List.forall_mem_cons]
  exact ⟨faithful_FXF 0xE 0x9E .skp (fun _ => rfl) rfl, faithful_FXF 0xE 0xA1 .sknp (fun _ => rfl) rfl,
    faithful_FXF 0xF 0x07 .ldVxDt (fun _ => rfl) rfl, faithful_FXF 0xF 0x0A .ldVxK (fun _ => rfl) rfl,
    faithful_FXF 0xF 0x15 .ldDtVx (fun _ => rfl) rfl, faithful_FXF 0xF 0x18 .ldStVx (fun _ => rfl) rfl, List.forall_mem_nil _⟩

theorem faithful_rowsIndex : ∀ r ∈ rowsIndex, r.Faithful := by
  simp only [rowsIndex, List.forall_mem_cons]
  exact ⟨faithful_FXF 0xF 0x1E .addI (fun _ => rfl) rfl, faithful_FXF 0xF 0x29 .ldF (fun _ => rfl) rfl,
    faithful_FXF 0xF 0x33 .ldB (fun _ => rfl) rfl, faithful_FXF 0xF 0x55 .ldMemVx (fun _ => rfl) rfl,
    faithful_FXF 0xF 0x65 .ldVxMem (fun _ => rfl) rfl, List.forall_mem_nil _⟩

theorem faithful_of_mem {p : Config.TimerKeyOps} {r : Row} (h : r ∈ dispatchTable p) : r.Faithful := by
  obtain h | h | h | ⟨-, h⟩ | h := mem_dispatchTable.mp h
  · exact faithful_rowsControl r h
  · exact faithful_rowsAlu r h
  · exact faithful_rowsMiddle r h
  · exact faithful_rowsTimerKey r h
  · exact faithful_rowsIndex r h

theorem isWordOf_of_decode {p : Config.TimerKeyOps} {w : Word} {i : Instr} (h : decode p w = .ok i) : IsWordOf w i := by
  obtain ⟨r, hr, ha, rfl⟩ := exists_row_of_decode h
  exact faithful_of_mem hr w ha

theorem isWordOf_sys {w : Word} {nnn : Addr} (h : IsWordOf w (.sys nnn)) : w = encFA 0x0 nnn := by
  obtain h | ⟨⟨x, h | h⟩, -⟩ := h
  · exact h
  · nomatch h
  · nomatch h

theorem wellFormed_of_ne_sys {i : Instr} (hcls : i ≠ .sys 0x0E0) (hret : i ≠ .sys 0x0EE) : i.wellFormed = true := by
  cases i with
  | sys nnn => simpa [Instr.wellFormed] using And.intro hcls hret
  | _ => rfl

/-- The decoder never makes `SYS 0E0` or `SYS 0EE`: their words are those of CLS and RET (R86). -/
theorem wellFormed_of_decode {p : Config.TimerKeyOps} {w : Word} {i : Instr} (h : decode p w = .ok i) :
    i.wellFormed = true := by
  refine wellFormed_of_ne_sys ?_ ?_
  · rintro rfl
    obtain rfl : w = 0x00E0 := isWordOf_sys (isWordOf_of_decode h)
    exact nomatch (decode_cls_word p).symm.trans h
  · rintro rfl
    obtain rfl : w = 0x00EE := isWordOf_sys (isWordOf_of_decode h)
    exact nomatch (decode_ret_word p).symm.trans h

/-! ## The words no row accepts -/

section
variable (w : Word)

theorem exists_accepts_rowsControl : (∃ r ∈ rowsControl, r.accepts w = true) ↔
    w.toNat / 4096 ∈ [0, 1, 2, 3, 4, 6, 7] ∨ (w.toNat / 4096 = 5 ∧ w.toNat % 16 = 0) := by
  simp only [rowsControl, accepts_FFFF, accepts_F000, accepts_F00F, List.mem_cons, List.not_mem_nil, or_false, exists_eq_or_imp,
    exists_eq_left, decide_eq_true_eq, BitVec.ofNat_eq_ofNat, BitVec.toNat_ofNat, Nat.reducePow, Nat.reduceMod]
  omega

theorem exists_accepts_rowsAlu : (∃ r ∈ rowsAlu, r.accepts w = true) ↔
    w.toNat / 4096 = 8 ∧ w.toNat % 16 ∈ [0, 1, 2, 3, 4, 5, 6, 7, 0xE] := by
  simp only [rowsAlu, accepts_F00F, List.mem_cons, List.not_mem_nil, or_false, exists_eq_or_imp,
    exists_eq_left, decide_eq_true_eq, BitVec.ofNat_eq_ofNat, BitVec.toNat_ofNat, Nat.reducePow, Nat.reduceMod]
  omega

theorem exists_accepts_rowsMiddle : (∃ r ∈ rowsMiddle, r.accepts w = true) ↔
    w.toNat / 4096 ∈ [0xA, 0xB, 0xC, 0xD] ∨ (w.toNat / 4096 = 9 ∧ w.toNat % 16 = 0) := by
  simp only [rowsMiddle, accepts_F000, accepts_F00F, List.mem_cons, List.not_mem_nil, or_false, exists_eq_or_imp,
    exists_eq_left, decide_eq_true_eq, BitVec.ofNat_eq_ofNat, BitVec.toNat_ofNat, Nat.reducePow, Nat.reduceMod]
  omega

theorem exists_accepts_rowsTimerKey : (∃ r ∈ rowsTimerKey, r.accepts w = true) ↔
    (w.toNat / 4096 = 0xE ∧ w.toNat % 256 ∈ [0x9E, 0xA1]) ∨
      (w.toNat / 4096 = 0xF ∧ w.toNat % 256 ∈ [0x07, 0x0A, 0x15, 0x18]) := by
  simp only [rowsTimerKey, accepts_F0FF, List.mem_cons, List.not_mem_nil, or_false, exists_eq_or_imp, exists_eq_left,
    decide_eq_true_eq, BitVec.ofNat_eq_ofNat, BitVec.toNat_ofNat, Nat.reducePow, Nat.reduceMod]
  omega

theorem exists_accepts_rowsIndex : (∃ r ∈ rowsIndex, r.accepts w = true) ↔
    w.toNat / 4096 = 0xF ∧ w.toNat % 256 ∈ [0x1E, 0x29, 0x33, 0x55, 0x65] := by
  simp only [rowsIndex, accepts_F0FF, List.mem_cons, List.not_mem_nil, or_false, exists_eq_or_imp, exists_eq_left,
    decide_eq_true_eq, BitVec.ofNat_eq_ofNat, BitVec.toNat_ofNat, Nat.reducePow, Nat.reduceMod]
  omega

theorem exists_accepts_dispatchTable (p : Config.TimerKeyOps) : (∃ r ∈ dispatchTable p, r.accepts w = true) ↔
    (∃ r ∈ rowsControl, r.accepts w = true) ∨ (∃ r ∈ rowsAlu, r.accepts w = true) ∨
      (∃ r ∈ rowsMiddle, r.accepts w = true) ∨ (p = .standard ∧ ∃ r ∈ rowsTimerKey, r.accepts w = true) ∨
      ∃ r ∈ rowsIndex, r.accepts w = true := by
  simp [mem_dispatchTable, or_and_right, exists_or, and_assoc]

end

end Sys2Proof

namespace Sys2Proof.Proofs

/-- Settles O1: the row of the instruction's own accepts its word, so the scan answers with it. -/
theorem decodeEncodeRoundTrip : Obligations.DecodeEncodeRoundTrip := fun _ rest hwf =>
  ⟨decode_encode hwf, decodeBytes_of_decode (decode_encode hwf) rest, decode_absent_encode hwf⟩

/-- Settles O2: the encoder rebuilds every word a row accepts, and the scan never reads `SYS 0E0` or `SYS 0EE`. -/
theorem decodedWordIsTheEncodedWord : Obligations.DecodedWordIsTheEncodedWord := fun _ _ h =>
  ⟨wellFormed_of_decode h, isWordOf_of_decode h⟩

/-- Settles O3, by the high nibble: only 8 and F have a list of low nibbles or low bytes to compare with R87's. -/
theorem unknownWordsAreTheListedSpaces : Obligations.UnknownWordsAreTheListedSpaces := by
  intro w
  have hop : w.toNat / 4096 < 16 := by have := w.isLt; omega
  have hn : w.toNat % 16 < 16 := Nat.mod_lt _ (by decide)
  simp only [decode_eq_unknownOpcode_iff, exists_accepts_dispatchTable, exists_accepts_rowsControl, exists_accepts_rowsAlu,
    exists_accepts_rowsMiddle, exists_accepts_rowsTimerKey, exists_accepts_rowsIndex]
  generalize w.toNat / 4096 = op at hop
  generalize w.toNat % 16 = n at hn
  generalize w.toNat % 256 = kk
  interval_cases op <;> simp
  · -- high nibble 8, by the low nibble
    omega
  · -- high nibble F, by the low byte
    omega

/-- Settles O4: the first row to accept a word is the row `find?` finds; the overlaps were read off the masks and patterns. -/
theorem firstMatchDecidesAndOnlyClsRetOverlap : Obligations.FirstMatchDecidesAndOnlyClsRetOverlap := by
  refine ⟨fun p w k r hk ha hbefore => decode_of_find ?_, fun w j k r r' => overlap_standard,
    fun p => ⟨decode_cls_word p, decode_ret_word p⟩⟩
  obtain ⟨hlt, rfl⟩ := List.getElem?_eq_some_iff.mp hk
  refine List.find?_eq_some_iff_getElem.mpr ⟨ha, k, hlt, rfl, fun j hj => ?_⟩
  simp [hbefore j _ hj (List.getElem?_eq_getElem (hj.trans hlt))]

/-- Settles O5: the decoder run on each word. -/
theorem sampleWordsDecode : Obligations.SampleWordsDecode := by
  unfold Obligations.SampleWordsDecode
  decide

end Sys2Proof.Proofs
end

/-! # The statements of 40_cycle: what a `Step` runs, its fetch, the halted machine, `started`, and where pc goes

A `Step` has two forms, nothing pending or `Step(keys)` first in the queue; `StepBegins.step_eq_runStep` makes one of them. What runs
then is read off the fetch (`FetchesWord.runStep_eq_runWord`), and what an instruction does off `Effect`. -/

section
namespace Sys2Proof.Machine

/-! ## The fetched word and the jump -/

theorem toNat_wordOfBytes (hi lo : Byte) : (wordOfBytes hi lo).toNat = 256 * hi.toNat + lo.toNat := by
  rw [wordOfBytes, BitVec.toNat_append, ← Nat.shiftLeft_add_eq_or_of_lt lo.isLt, Nat.shiftLeft_eq, Nat.mul_comm]

/-- Outside the timer and key group the value of `P_TIMER_KEY_OPS` does not matter to an instruction's word (30_encoding R85). -/
theorem decode_encode_of_not_inTimerKeyGroup (p : Config.TimerKeyOps) {i : Instr} (hwf : i.wellFormed = true)
    (hgroup : i.inTimerKeyGroup = false) : decode p (encode i) = .ok i := by
  cases p with
  | standard => exact decode_encode hwf
  | absent => exact decode_absent_encode hwf hgroup

theorem exec_jp (s : State) (nnn : Addr) : exec (.jp nnn) s = .next { s with pc := nnn } := by
  simp only [exec, execJp, complete, State.setPc, BitVec.ofNat_toNat, BitVec.setWidth_eq]

/-! ## The two forms of a `Step` -/

theorem step_of_pending_nil {s : State} (hp : s.pending = []) : step s = runStep s := by
  simp only [step, performNext, hp]

theorem step_of_pending_step {s : State} {keys : BitVec 16} {rest : List HostOp} (hp : s.pending = .step keys :: rest)
    (hf : s.fault = none) : step s = runStep { s with keys := keys, pending := rest } := by
  simp [step, performNext, hp, performOp, stepWithKeys, State.halted, hf]

/-- Taking a fault in a `Step`, as one update (60_exceptions R251). -/
theorem State.markStarted_takeFault (s : State) (r : Raise) (w : Option Word) :
    s.markStarted.takeFault r w = { s with started := true, fault := some ⟨r.kind, w, s.pc, r.info⟩ } := rfl

/-! ## `started` -/

@[simp] theorem State.setRegsFrom_started (s : State) (a : Nat) (bytes : List Byte) :
    (s.setRegsFrom a bytes).started = s.started := by
  rw [State.setRegsFrom_frame]

/-- No instruction clears `started` (10_state R30). -/
theorem Effect.started {s t : State} {i : Instr} (h : Effect s i t) (hs : s.started = true) : t.started = true := by
  cases h with
  | fault => rfl
  | load => exact (s.setRegsFrom_started 0 _).trans hs
  | _ => exact hs

/-- A `Step` of a running machine sets `started`, whether it commits or faults (R110, R112). -/
theorem runStep_started {s t : State} (hf : s.fault = none) (h : runStep s = .next t) : t.started = true := by
  rcases runStep_cases s with ⟨hhalted, _⟩ | ⟨_, _, he⟩ | ⟨_, _, _, _, he⟩ | ⟨_, _, i, _, he⟩
  · exact absurd hf hhalted
  · obtain rfl := Host.Outcome.next.inj (he.symm.trans h)
    rfl
  · obtain rfl := Host.Outcome.next.inj (he.symm.trans h)
    rfl
  · exact (exec_effect i s.markStarted t (he.symm.trans h)).started rfl

theorem step_keeps_started (s t : State) (h : step s = .next t) : s.started = true → t.started = true := by
  refine step_induction (fun s t => s.started = true → t.started = true) ?queue ?keys ?load ?tick ?fault ?exec s t h
  case queue => exact fun _ _ _ hs => hs
  case keys => exact fun _ _ _ _ h => h
  case load => exact fun _ _ _ _ _ hs => hs
  case tick => exact fun _ _ _ _ hs => hs
  case fault => exact fun _ _ _ => rfl
  case exec => exact fun s t i _ hexec _ => (exec_effect i s.markStarted t hexec).started rfl

/-! ## The halted machine -/

theorem timerTick_halted {s : State} (hf : s.fault ≠ none) : s.timerTick = s :=
  if_pos (Option.isSome_iff_ne_none.mpr hf)

/-- A halted machine consumes the host's next operation; only `LoadProgram`, refused after the first step, leaves a reply. -/
theorem step_halted {s : State} (hf : s.fault ≠ none) (hs : s.started = true) :
    ∃ replies, step s = .next { s with pending := s.pending.tail, loadReplies := replies } := by
  rcases step_cases s with ⟨hp, he⟩ | ⟨bytes, rest, hp, he⟩ | ⟨rest, hp, he⟩ | ⟨keys, rest, hp, _, he⟩ | ⟨_, _, _, hrun, _⟩
  · exact ⟨s.loadReplies, by rw [he, runStep_halted s hf, hp, List.tail_nil, ← hp]⟩
  · exact ⟨s.loadReplies ++ [.refused], by rw [he, loadProgram_refused { s with pending := rest } bytes (.inl hs), hp]; rfl⟩
  · exact ⟨s.loadReplies, by rw [he, timerTick_halted (s := { s with pending := rest }) hf, hp]; rfl⟩
  · exact ⟨s.loadReplies, by rw [he, hp]; rfl⟩
  · exact absurd hrun hf

theorem run_succ_of_step {M : Host.Core} {s u : M.State} (k : Nat) (h : M.step s = .next u) : M.run (k + 1) s = M.run k u := by
  rw [Host.Core.run, h]

theorem run_halted (k : Nat) {s : State} (hf : s.fault ≠ none) (hs : s.started = true) :
    ∃ replies, Host.Core.run core k s = .next { s with pending := s.pending.drop k, loadReplies := replies } := by
  induction k generalizing s with
  | zero => exact ⟨s.loadReplies, rfl⟩
  | succ k ih =>
    obtain ⟨replies, hstep⟩ := step_halted hf hs
    obtain ⟨replies', hrun⟩ := ih (s := { s with pending := s.pending.tail, loadReplies := replies }) hf hs
    exact ⟨replies', by rw [run_succ_of_step (M := core) k hstep, hrun, List.drop_tail]⟩

end Sys2Proof.Machine

namespace Sys2Proof.Safety
open Sys2Proof.Machine

section
variable {s u : State} {w : Word}

/-- In a running machine both forms of `Step` are `runStep` in the state they begin in. -/
theorem StepBegins.step_eq_runStep (h : StepBegins s u) (hf : Running s) : step s = runStep u := by
  obtain ⟨hp, rfl⟩ | ⟨keys, rest, hp, rfl⟩ := h
  · exact step_of_pending_nil hp
  · exact step_of_pending_step hp hf

/-- The beginning of a `Step` touches the queue and the key sample only. -/
theorem StepBegins.unchanged (h : StepBegins s u) : u.fault = s.fault ∧ u.pc = s.pc ∧ u.mem = s.mem ∧ u.params = s.params := by
  obtain ⟨_, rfl⟩ | ⟨_, _, _, rfl⟩ := h
  · exact ⟨rfl, rfl, rfl, rfl⟩
  · exact ⟨rfl, rfl, rfl, rfl⟩

theorem StepBegins.fetchesWord (h : StepBegins s u) (hw : FetchesWord s w) : FetchesWord u w := by
  obtain ⟨hfault, hpc, hmem, hparams⟩ := h.unchanged
  simpa only [FetchesWord, Running, hfault, hpc, State.byteAt, hmem, hparams] using hw

theorem FetchesWord.runStep_eq_runWord (h : FetchesWord s w) : runStep s = runWord w s.markStarted := by
  obtain ⟨hf, hpc, rfl⟩ := h
  exact runStep_running s hf hpc.ne

theorem StepBegins.step_eq_runWord (h : StepBegins s u) (hw : FetchesWord s w) : step s = runWord w u.markStarted := by
  rw [h.step_eq_runStep hw.1, (h.fetchesWord hw).runStep_eq_runWord]

theorem StepBegins.step_eq_exec {i : Instr} (h : StepBegins s u) (hw : FetchesWord s w)
    (hd : decode s.params.timerKeyOps w = .ok i) : step s = exec i u.markStarted := by
  obtain ⟨_, _, _, hparams⟩ := h.unchanged
  rw [h.step_eq_runWord hw]
  exact runWord_ok w u.markStarted i (by rw [State.markStarted_params, hparams, hd])

end

end Sys2Proof.Safety

namespace Sys2Proof.Proofs
open Sys2Proof.Machine Sys2Proof.Safety

/-- Settles O9: a step of a halted machine consumes one operation, so k steps consume k. -/
theorem haltedMachineNeverChanges : Obligations.HaltedMachineNeverChanges := by
  refine ⟨fun s hf hp => ?_, fun s t k hf hs hrun => ?_⟩
  · rw [step_of_pending_nil hp, runStep_halted s hf]
  · obtain ⟨replies, hrun'⟩ := run_halted k hf hs
    obtain rfl : _ = t := Host.Outcome.next.inj (hrun'.symm.trans hrun)
    rfl

/-- Settles O11. -/
theorem stepSetsStarted : Obligations.StepSetsStarted := by
  refine ⟨fun s u t hbegin hf hstep => ?_, step_keeps_started⟩
  have hu : u.fault = none := hbegin.unchanged.1.trans hf
  rw [hbegin.step_eq_runStep hf] at hstep
  exact runStep_started hu hstep

/-- Settles O14: an arm of `Effect` that is none of the jumps, skips and waits moves pc by 2. -/
theorem pcAfterACommittedStep : Obligations.PcAfterACommittedStep := by
  intro i s t hexec hf
  cases exec_effect i s t hexec with
  | fault => cases hf
  | skip i taken hi =>
    cases taken with
    | false => exact .inl rfl
    | true => exact .inr (.inl ⟨rfl, hi⟩)
  | wait x => exact .inr (.inr (.inl ⟨rfl, x, rfl⟩))
  | jp nnn => exact .inr (.inr (.inr (.inl ⟨nnn, rfl, .inl rfl⟩)))
  | call nnn => exact .inr (.inr (.inr (.inl ⟨nnn, rfl, .inr rfl⟩)))
  | jpV0 nnn => exact .inr (.inr (.inr (.inr (.inl ⟨nnn, BitVec.toNat_ofNat _ _, rfl⟩))))
  | ret k hk hsp => exact .inr (.inr (.inr (.inr (.inr ⟨rfl, ⟨k, hk⟩, hsp, rfl⟩))))
  | _ => exact .inl rfl

/-- Settles O6: the word is fetched and decoded in the state the `Step` begins in. -/
theorem stepRunsTheDecodedInstruction : Obligations.StepRunsTheDecodedInstruction := by
  intro s w i ⟨hp, hw⟩ hd
  refine ⟨StepBegins.step_eq_exec (.inl ⟨hp, rfl⟩) hw hd, fun keys rest => ?_⟩
  exact StepBegins.step_eq_exec (s := { s with pending := .step keys :: rest }) (.inr ⟨keys, rest, rfl, rfl⟩) hw hd

/-- Settles O7: `pc + 1` is not masked, so the second byte at 0xFFF is out of range. -/
theorem fetchIsBigEndianAndFaultsAtTheEnd : Obligations.FetchIsBigEndianAndFaultsAtTheEnd := by
  refine ⟨fun s hpc => ?_, fun s hpc => fetch_end s (congrArg BitVec.toNat hpc), fun s u hbegin hf hpc => ?_⟩
  · exact ⟨_, fetch_ok s hpc.ne, toNat_wordOfBytes _ _⟩
  · obtain ⟨hfault, hupc, _, _⟩ := hbegin.unchanged
    have hpc' : u.pc = 0xFFF := hupc.trans hpc
    rw [hbegin.step_eq_runStep hf, runStep_fetch_fault u (hfault.trans hf) (congrArg BitVec.toNat hpc'),
      State.markStarted_takeFault, hpc']

/-- Settles O8: the decoder's error is the only thing the machine reports, with the word it was given. -/
theorem unknownOpcodeIsReported : Obligations.UnknownOpcodeIsReported := by
  intro s u w hbegin hw hd
  obtain ⟨_, hpc, _, hparams⟩ := hbegin.unchanged
  rw [hbegin.step_eq_runWord hw, runWord_unknown w u.markStarted _ (by rw [State.markStarted_params, hparams, hd]),
    State.markStarted_takeFault, hpc]

/-- Settles O34: the word of JP is read the same under either value of `P_TIMER_KEY_OPS`, and JP writes pc only. -/
theorem jumpToItselfIdles : Obligations.JumpToItselfIdles := by
  intro s ⟨hp, hw⟩
  have hd := decode_encode_of_not_inTimerKeyGroup s.params.timerKeyOps (i := .jp s.pc) rfl rfl
  rw [StepBegins.step_eq_exec (.inl ⟨hp, rfl⟩) hw hd, exec_jp]
  rfl

end Sys2Proof.Proofs
end

/-! # The statements of 41_control_flow: SYS, the jumps, CALL and RET, and the compare-and-skip instructions

Each instruction's answer is an equation of its own (`exec_call_push`, `exec_ret_pop`, …), and the encoding clauses are read off the
place of the row in the table. A CALL to itself keeps `SelfCalling`, which counts the return addresses it has pushed. -/

section
namespace Sys2Proof.Machine

variable (s : State) (nnn : Addr)

/-! ## The encoding of SYS -/

/-- `SYS 0E0` and `SYS 0EE` would need the words of CLS and RET, so every other word of the row is read as SYS (30_encoding R86). -/
theorem decode_sys_word {w : Word} (hop : w &&& 0xF000 = 0x0000) (hcls : w ≠ 0x00E0) (hret : w ≠ 0x00EE) :
    decode .standard w = .ok (.sys (fieldsOf w).nnn) := by
  have hr : (⟨0xF000, 0x0000, fun f => .sys f.nnn⟩ : Row) ∈ dispatchTable .standard := List.mem_of_getElem? (i := 2) rfl
  have ha : Row.accepts ⟨0xF000, 0x0000, fun f => .sys f.nnn⟩ w = true := beq_iff_eq.mpr hop
  have hw : encFA 0x0 (fieldsOf w).nnn = w := encFA_fieldsOf (opcode_of_accepts_F000 ha rfl)
  refine decode_of_accepts hr ha rfl (wellFormed_of_ne_sys (fun h => hcls ?_) fun h => hret ?_)
  · rw [← hw, Instr.sys.inj h]
    rfl
  · rw [← hw, Instr.sys.inj h]
    rfl

/-! ## What each instruction answers -/

theorem exec_sys_nop (h : s.params.sysPolicy = .nop) : exec (.sys nnn) s = .next { s with pc := s.pc + 2 } := by
  rw [exec, execSys, h]
  exact complete_advance _ s s

theorem exec_sys_fault (h : s.params.sysPolicy = .fault) :
    exec (.sys nnn) s = .next (s.takeFault ⟨.sysUnsupported, none⟩ (some (encode (.sys nnn)))) := by
  rw [exec, execSys, h]
  rfl

theorem exec_jpV0 : exec (.jpV0 nnn) s = .next (s.setPc (nnn.toNat + (s.reg 0).toNat)) := rfl

/-- R133: the address after the CALL goes to the first free entry. -/
theorem exec_call_push (h : s.sp.val < Config.stackDepth) : exec (.call nnn) s =
    .next { s with pc := nnn, stack := s.stack.set s.sp.val (s.pc + 2), sp := ⟨s.sp.val + 1, Nat.succ_lt_succ h⟩ } := by
  simp only [exec, execCall, State.push_some s _ h, complete, State.setPc, BitVec.ofNat_toNat, BitVec.setWidth_eq,
    ofNat_toNat_add_lit]
  rfl

theorem exec_call_overflow (h : ¬ s.sp.val < Config.stackDepth) :
    exec (.call nnn) s = .next (s.takeFault ⟨.stackOverflow, none⟩ (some (encode (.call nnn)))) := by
  rw [exec, execCall, State.push_none s _ h]
  rfl

/-- R131: pc is the top entry, which stays on the stack. -/
theorem exec_ret_pop {n : Nat} (hn : n < Config.stackDepth) (h : s.sp.val = n + 1) :
    exec .ret s = .next { s with pc := s.stack[n], sp := ⟨n, Nat.lt_succ_of_lt hn⟩ } := by
  simp only [exec, execRet, State.pop_some s n hn h, complete, State.setPc, BitVec.ofNat_toNat, BitVec.setWidth_eq]

theorem exec_ret_underflow (h : s.sp.val = 0) :
    exec .ret s = .next (s.takeFault ⟨.stackUnderflow, none⟩ (some (encode .ret))) := by
  rw [exec, execRet, State.pop_none s h]
  rfl

/-- The entry a push wrote, and the entries it left. -/
theorem getElem_set_stack (stack : Vector Addr Config.stackDepth) {n : Nat} (h : n < Config.stackDepth) (a : Addr)
    (k : Fin Config.stackDepth) : (stack.set n a h)[k] = if k.val = n then a else stack[k] := by
  rw [Fin.getElem_fin, Vector.getElem_set]
  exact if_congr eq_comm rfl rfl

/-! ## The skips -/

/-- A skip taken on equality (R134, R136). -/
theorem complete_skipIf_beq (w : Word) (a b : Byte) :
    complete w s (skipIf (a == b) s) = .next { s with pc := if a = b then s.pc + 4 else s.pc + 2 } := by
  simp only [complete_skipIf, beq_iff_eq]

/-- A skip taken on difference (R135, R137). -/
theorem complete_skipIf_bne (w : Word) (a b : Byte) :
    complete w s (skipIf (a != b) s) = .next { s with pc := if a = b then s.pc + 2 else s.pc + 4 } := by
  simp only [complete_skipIf, bne_iff_ne, ite_not]

end Sys2Proof.Machine

namespace Sys2Proof.Safety
open Sys2Proof.Machine

/-! ## The encoding clauses -/

/-- The encoding clause of a row of R85 (its place `k` counted from 0) whose instructions are all well-formed. -/
theorem RowDecodes.of_getElem? {mask pattern : Word} {make : Fields → Instr} (k : Nat)
    (hrow : (dispatchTable .standard)[k]? = some ⟨mask, pattern, make⟩) (hwf : ∀ f, (make f).wellFormed = true) :
    RowDecodes mask pattern make := fun _ hw =>
  decode_of_accepts (List.mem_of_getElem? hrow) (beq_iff_eq.mpr hw) rfl (hwf _)

/-! ## A CALL to itself -/

theorem AboutToRun.step_eq_exec {s : State} {i : Instr} (h : AboutToRun s (encode i)) (hwf : i.wellFormed = true)
    (hgroup : i.inTimerKeyGroup = false) : step s = exec i s.markStarted := by
  obtain ⟨hp, hw⟩ := h
  exact StepBegins.step_eq_exec (.inl ⟨hp, rfl⟩) hw (decode_encode_of_not_inTimerKeyGroup _ hwf hgroup)

/-- The machine is about to run `CALL a` at address `a`, and `k` of its return addresses are on the stack. -/
structure SelfCalling (a : Addr) (k : Nat) (t : State) : Prop where
  about : AboutToRun t (encode (.call a))
  pc : t.pc = a
  sp : t.sp.val = k
  returns : ∀ j : Fin Config.stackDepth, j.val < k → t.stack[j] = a + 2
  started : 0 < k → t.started = true

section
variable {a : Addr} {k : Nat} {t : State}

/-- While the stack has room, the CALL pushes one more return address and is about to run again. -/
theorem SelfCalling.step_next (h : SelfCalling a k t) (hk : k < Config.stackDepth) :
    ∃ u, step t = .next u ∧ SelfCalling a (k + 1) u := by
  obtain ⟨habout, rfl, rfl, hreturns, _⟩ := h
  refine ⟨_, (habout.step_eq_exec rfl rfl).trans (exec_call_push t.markStarted t.pc hk), habout, rfl, rfl, fun j hj => ?_,
    fun _ => rfl⟩
  refine (getElem_set_stack t.stack hk (t.pc + 2) j).trans ?_
  split
  case isTrue => rfl
  case isFalse hne => exact hreturns j (by omega)

theorem SelfCalling.run_next (n : Nat) (h : SelfCalling a k t) (hn : k + n ≤ Config.stackDepth) :
    ∃ u, Host.Core.run core n t = .next u ∧ SelfCalling a (k + n) u := by
  induction n generalizing k t with
  | zero => exact ⟨t, rfl, h⟩
  | succ n ih =>
    obtain ⟨u, hstep, hu⟩ := h.step_next (by omega)
    obtain ⟨v, hrun, hv⟩ := ih hu (by omega)
    exact ⟨v, (run_succ_of_step (M := core) n hstep).trans hrun, (Nat.succ_add_eq_add_succ k n) ▸ hv⟩

/-- On a full stack the CALL only records the fault. -/
theorem SelfCalling.step_full (h : SelfCalling a Config.stackDepth t) :
    step t = .next { t with fault := some ⟨.stackOverflow, some (encode (.call a)), a, none⟩ } := by
  obtain ⟨habout, rfl, hsp, _, hstarted⟩ := h
  have hfull : ¬ t.markStarted.sp.val < Config.stackDepth := hsp.not_lt
  rw [habout.step_eq_exec rfl rfl, exec_call_overflow _ _ hfull, State.markStarted_takeFault, hstarted (by decide)]

end

end Sys2Proof.Safety

namespace Sys2Proof.Proofs
open Sys2Proof.Machine Sys2Proof.Safety

/-- Settles O29: a full stack is the only case in which the push fails. -/
theorem callPushesTheReturnAddress : Obligations.CallPushesTheReturnAddress := by
  refine ⟨.of_getElem? 4 rfl fun _ => rfl, fun s nnn => ⟨fun hsp => ?_, fun hsp => ?_⟩⟩
  · exact ⟨_, exec_call_push s nnn hsp, rfl, rfl, getElem_set_stack s.stack hsp (s.pc + 2), rfl⟩
  · exact exec_call_overflow s nnn hsp.not_lt

/-- Settles O30. -/
theorem returnPopsTheTop : Obligations.ReturnPopsTheTop :=
  ⟨.of_getElem? 1 rfl fun _ => rfl, fun s k hsp => ⟨_, exec_ret_pop s k.isLt hsp, rfl, rfl, rfl⟩, exec_ret_underflow⟩

/-- Settles O31: RET pops the entry that CALL has just written, and the entries below it were not touched. -/
theorem returnAfterCallResumesAfterIt : Obligations.ReturnAfterCallResumesAfterIt := by
  intro s nnn hsp
  refine ⟨_, _, exec_call_push s nnn hsp, exec_ret_pop _ hsp rfl, ?_, fun k hk => ?_⟩
  · simp only [Vector.getElem_set_self]
  · rw [getElem_set_stack, if_neg hk.ne]

/-- Settles O32: sixteen CALLs fill the stack, and the seventeenth finds it full. -/
theorem callToItselfOverflowsOnThe17th : Obligations.CallToItselfOverflowsOnThe17th := by
  intro s habout hsp
  have hstart : SelfCalling s.pc 0 s :=
    ⟨habout, rfl, hsp, fun j hj => absurd hj j.val.not_lt_zero, fun h => absurd h (lt_irrefl 0)⟩
  obtain ⟨t, hrun, ht⟩ := hstart.run_next Config.stackDepth le_rfl
  obtain ⟨_, hrunning, _⟩ := ht.about
  exact ⟨t, _, hrun, hrunning, ht.pc, ht.sp, fun k => ht.returns k k.isLt, ht.step_full, rfl⟩

/-- Settles O33. -/
theorem compareSkipsAdvanceByFourOrTwo : Obligations.CompareSkipsAdvanceByFourOrTwo :=
  ⟨.of_getElem? 5 rfl fun _ => rfl, .of_getElem? 6 rfl fun _ => rfl, .of_getElem? 7 rfl fun _ => rfl,
    .of_getElem? 19 rfl fun _ => rfl, fun s x y kk =>
    ⟨complete_skipIf_beq s _ (s.reg x) kk, complete_skipIf_bne s _ (s.reg x) kk,
      complete_skipIf_beq s _ (s.reg x) (s.reg y), complete_skipIf_bne s _ (s.reg x) (s.reg y)⟩⟩

/-- Settles O27: outside the words of CLS and RET the row of SYS decides, and `P_SYS_POLICY` decides what SYS does. -/
theorem sysFollowsItsPolicy : Obligations.SysFollowsItsPolicy :=
  ⟨fun _ => decode_sys_word, fun s nnn => ⟨exec_sys_nop s nnn, exec_sys_fault s nnn⟩⟩

/-- Settles O28: the only mask that can bite is the one on the sum with V0. -/
theorem jumpsSetPc : Obligations.JumpsSetPc :=
  ⟨.of_getElem? 3 rfl fun _ => rfl, .of_getElem? 21 rfl fun _ => rfl, fun s nnn =>
    ⟨exec_jp s nnn, _, exec_jpV0 s nnn, rfl, BitVec.toNat_ofNat _ _⟩⟩

end Sys2Proof.Proofs
end

/-! # The statements of 42_alu: register loads, logic, arithmetic with a flag, shifts, and the random byte

No handler here raises, so each answers with one or two register writes and the auto-advance. What those writes leave is said once, for
a result alone (`CompletesWithRegisters.of_setV`) and for a result and then the flag (`CompletesWithRegisters.of_setVF`); an
instruction adds only what its numbers are as bytes. -/

section
namespace Sys2Proof.Machine

variable (a b : Byte)

/-! ## The flags, said of the operands' bytes -/

/-- R170 -/
theorem carryFlag_eq (sum : Nat) : carryFlag sum = if sum > 255 then 1 else 0 := by
  simp only [carryFlag, flagByte, decide_eq_true_eq]

/-- R171, R173 -/
theorem greaterFlag_eq : greaterFlag a b = if b < a then 1 else 0 := by
  simp only [greaterFlag, flagByte, decide_eq_true_eq, gt_iff_lt, BitVec.lt_def]

/-- A flag is one bit in a byte. -/
theorem flagByte_eq (bit : Bool) : flagByte bit = (BitVec.ofBool bit).setWidth 8 := by
  cases bit <;> rfl

/-- R172 -/
theorem shiftedOutRight_eq : shiftedOutRight a = a &&& 1 :=
  (flagByte_eq _).trans BitVec.and_one_eq_setWidth_ofBool_getLsbD.symm

/-- R174 -/
theorem shiftedOutLeft_eq : shiftedOutLeft a = a >>> 7 := by
  have hbit : a.getLsbD 7 = decide (128 ≤ a.toNat) := a.msb_eq_decide
  have hlt := a.isLt
  apply BitVec.eq_of_toNat_eq
  rw [shiftedOutLeft, hbit, BitVec.toNat_ushiftRight, Nat.shiftRight_eq_div_pow]
  by_cases h : 128 ≤ a.toNat
  · rw [decide_eq_true h, show (flagByte true).toNat = 1 from rfl]
    omega
  · rw [decide_eq_false h, show (flagByte false).toNat = 0 from rfl]
    omega

/-! ## What is stored of a number -/

/-- A byte is stored as it is: the mask of the register write never bites. -/
theorem ofNat_toNat_byte : BitVec.ofNat 8 a.toNat = a := by
  rw [BitVec.ofNat_toNat, BitVec.setWidth_eq]

theorem ofNat_toNat_shiftRight (n : Nat) : BitVec.ofNat 8 (a.toNat >>> n) = a >>> n := by
  rw [← BitVec.toNat_ushiftRight, ofNat_toNat_byte]

theorem ofNat_toNat_shiftLeft (n : Nat) : BitVec.ofNat 8 (a.toNat <<< n) = a <<< n :=
  BitVec.eq_of_toNat_eq (by rw [BitVec.toNat_ofNat, BitVec.toNat_shiftLeft])

theorem State.reg_setV_toNat (s : State) (x y : Nib) : (s.setV x a.toNat).reg y = if y = x then a else s.reg y := by
  rw [State.reg_setV, ofNat_toNat_byte]

/-- R175: a register write from the free value, and the draw counted. -/
theorem exec_rnd (s : State) (x : Nib) (kk : Byte) : ∃ t, exec (.rnd x kk) s = .next t ∧
    (∀ y, t.reg y = if y = x then Config.drawByte s.draws &&& kk else s.reg y) ∧
    t = { s with v := t.v, pc := s.pc + 2, draws := s.draws + 1 } :=
  ⟨_, complete_advance (encode (.rnd x kk)) s _, State.reg_setV_toNat _ s x, rfl⟩

end Sys2Proof.Machine

namespace Sys2Proof.Safety
open Sys2Proof.Machine

/-! ## What a handler that only writes registers leaves -/

section
variable {i : Instr} {s : State} {x : Nib} {n : Nat} {b f c : Byte}

/-- A result stored in one register, which may be VF. -/
theorem CompletesWithRegisters.of_setV (hexec : exec i s = complete (encode i) s (.advance (s.setV x n)))
    (hb : BitVec.ofNat 8 n = b) : CompletesWithRegisters i s (fun k => if k = x then b else s.reg k) := by
  subst hb
  exact ⟨_, hexec.trans (complete_advance _ s _), (s.reg_setV x · n), rfl⟩

/-- A result stored in one register and then the flag in VF: the flag is what VF keeps when they are the same register (42_alu R160). -/
theorem CompletesWithRegisters.of_setVF (hexec : exec i s = complete (encode i) s (.advance ((s.setV x n).setVF f)))
    (hb : BitVec.ofNat 8 n = b) (hf : f = c) :
    CompletesWithRegisters i s (fun k => if k = 15 then c else if k = x then b else s.reg k) := by
  subst hb hf
  refine ⟨_, hexec.trans (complete_advance _ s _), fun k => ?_, rfl⟩
  exact ((s.setV x n).reg_setVF f k).trans (by rw [State.reg_setV])

end

end Sys2Proof.Safety

namespace Sys2Proof.Proofs
open Sys2Proof.Machine Sys2Proof.Safety

/-- Settles O37: the sum is stored modulo 256, the carry is of the sum before that. -/
theorem addWritesSumThenCarry : Obligations.AddWritesSumThenCarry :=
  ⟨.of_getElem? 14 rfl fun _ => rfl, fun s x y => .of_setVF rfl (ofNat_add_toNat (s.reg x) (s.reg y)) (carryFlag_eq _)⟩

/-- Settles O38: SUBN is SUB with its operands exchanged. -/
theorem subtractsWriteDifferenceThenStrictFlag : Obligations.SubtractsWriteDifferenceThenStrictFlag :=
  ⟨.of_getElem? 15 rfl fun _ => rfl, .of_getElem? 17 rfl fun _ => rfl, fun s x y =>
    ⟨.of_setVF rfl (ofNat_wrappedDifference (s.reg x) (s.reg y)) (greaterFlag_eq (s.reg x) (s.reg y)),
      .of_setVF rfl (ofNat_wrappedDifference (s.reg y) (s.reg x)) (greaterFlag_eq (s.reg y) (s.reg x))⟩⟩

/-- Settles O39: the handlers read Vx only; the encoding clauses leave the word's `y` out of the instruction. -/
theorem shiftsWriteVxThenTheBitShiftedOut : Obligations.ShiftsWriteVxThenTheBitShiftedOut :=
  ⟨.of_getElem? 16 rfl fun _ => rfl, .of_getElem? 18 rfl fun _ => rfl, fun s x =>
    ⟨.of_setVF rfl (ofNat_toNat_shiftRight (s.reg x) 1) (shiftedOutRight_eq (s.reg x)),
      .of_setVF rfl (ofNat_toNat_shiftLeft (s.reg x) 1) (shiftedOutLeft_eq (s.reg x))⟩⟩

/-- Settles O40: nothing is asked of the drawn byte; the mask clears the bits outside kk. -/
theorem randomByteIsMasked : Obligations.RandomByteIsMasked := by
  refine ⟨.of_getElem? 22 rfl fun _ => rfl, fun s x kk => ?_⟩
  obtain ⟨t, hexec, hreg, hframe⟩ := exec_rnd s x kk
  have hx : t.reg x = Config.drawByte s.draws &&& kk := (hreg x).trans (if_pos rfl)
  have hmask : t.reg x &&& ~~~kk = 0 := by
    rw [hx, BitVec.and_assoc, BitVec.and_not_self]
    exact BitVec.and_zero
  exact ⟨t, hexec, hx, hmask, fun k hk => (hreg k).trans (if_neg hk), hframe⟩

/-- Settles O35: a byte fits Vx, and only the sum of two needs the mask. -/
theorem loadsAndAddImmediateWriteVx : Obligations.LoadsAndAddImmediateWriteVx :=
  ⟨.of_getElem? 8 rfl fun _ => rfl, .of_getElem? 10 rfl fun _ => rfl, .of_getElem? 9 rfl fun _ => rfl, fun s x y kk =>
    ⟨.of_setV rfl (ofNat_toNat_byte kk), .of_setV rfl (ofNat_toNat_byte (s.reg y)), .of_setV rfl (ofNat_add_toNat (s.reg x) kk)⟩⟩

/-- Settles O36: the result of a bitwise operation on two bytes is a byte. -/
theorem logicWritesVxAndNoFlag : Obligations.LogicWritesVxAndNoFlag :=
  ⟨.of_getElem? 11 rfl fun _ => rfl, .of_getElem? 12 rfl fun _ => rfl, .of_getElem? 13 rfl fun _ => rfl, fun s x y =>
    ⟨.of_setV rfl (ofNat_toNat_byte (s.reg x ||| s.reg y)), .of_setV rfl (ofNat_toNat_byte (s.reg x &&& s.reg y)),
      .of_setV rfl (ofNat_toNat_byte (s.reg x ^^^ s.reg y))⟩⟩

end Sys2Proof.Proofs
end

/-! # The statements of 43_index_memory: LD I, LD F, ADD I, and the transfers between registers and memory

LD B and LD [I] both store one run of bytes at I, so what a storing instruction does is said once, for any run: its two faults
(`FaultsWith.of_font_store`, `FaultsWith.of_store_past_end`) and its completion (`exec_of_store`). An instruction adds only which bytes it
stores. -/

section
namespace Sys2Proof.Machine

variable (s : State)

/-! ## The index register -/

theorem exec_ldI (nnn : Addr) : exec (.ldI nnn) s = .next { s with i := nnn, pc := s.pc + 2 } := by
  simp only [exec, execLdI, complete_advance, State.setI, BitVec.ofNat_toNat, BitVec.setWidth_eq]

/-- R191: the flag is written after I, from the values before. -/
theorem exec_addI (x : Nib) : exec (.addI x) s =
    .next { (s.setI (s.i.toNat + (s.reg x).toNat)).setVF (addIFlag s.params.addIFlag s.i (s.reg x)) with pc := s.pc + 2 } :=
  complete_advance (encode (.addI x)) s _

/-- I alone, 12 bits wide, never exceeds 0xFFF. -/
theorem addIFlag_preAdd (i0 : Addr) (v : Byte) : addIFlag .preAdd i0 v = 0 := by
  have hi : ¬ i0.toNat > 0xFFF := Nat.not_lt.mpr (Nat.le_of_lt_succ i0.isLt)
  simp only [addIFlag, flagByte, decide_eq_true_eq, if_neg hi]

theorem addIFlag_sumOverflow (i0 : Addr) (v : Byte) :
    addIFlag .sumOverflow i0 v = if i0.toNat + v.toNat > 0xFFF then 1 else 0 := by
  simp only [addIFlag, flagByte, decide_eq_true_eq]

/-! ## LD B -/

/-- The digits of a byte, as `bcdDigits` lists them, fit a byte (R193). -/
theorem toNat_getD_bcdDigits (v : Byte) : ((bcdDigits v).getD 0 0).toNat = v.toNat / 100 ∧
    ((bcdDigits v).getD 1 0).toNat = v.toNat / 10 % 10 ∧ ((bcdDigits v).getD 2 0).toNat = v.toNat % 10 := by
  have hv := v.isLt
  simp only [bcdDigits, List.getD_cons_zero, List.getD_cons_succ, BitVec.toNat_ofNat]
  omega

/-! ## LD Vx, [I] -/

/-- R195: inside the address space the bytes from I on are loaded. -/
theorem exec_ldVxMem_ok {x : Nib} (hrange : s.i.toNat + (x.val + 1) ≤ 0x1000) : exec (.ldVxMem x) s =
    .next (s.setRegsFrom 0 ((List.range (x.val + 1)).map fun k => s.byteAt (s.i.toNat + k))).advance := by
  rw [exec, execLdVxMem, State.dataAddr_zero, s.readBytes_ok _ _ hrange]
  rfl

theorem exec_ldVxMem_range {x : Nib} (hrange : 0x1000 < s.i.toNat + (x.val + 1)) : exec (.ldVxMem x) s =
    complete (encode (.ldVxMem x)) s (.raised ⟨.addressOutOfRange, some (.addr 0x1000)⟩) := by
  rw [exec, execLdVxMem, s.readBytes_error _ _ s.dataAddr_zero_le hrange]

/-- Loading `f 0` to `f x` into V0 to Vx. -/
theorem State.reg_setRegsFrom_range (x k : Nib) (f : Nat → Byte) :
    (s.setRegsFrom 0 ((List.range (x.val + 1)).map f)).reg k = if k ≤ x then f k.val else s.reg k := by
  have hx := x.isLt
  have hlen : ((List.range (x.val + 1)).map f).length = x.val + 1 := by rw [List.length_map, List.length_range]
  rw [State.reg_setRegsFrom _ s 0 (by omega), hlen]
  by_cases hk : k ≤ x
  · have hk' : k.val < x.val + 1 := Nat.lt_succ_of_le hk
    rw [if_pos hk, if_pos (by omega), Nat.sub_zero, List.getD_eq_getElem _ _ (by omega), List.getElem_map, List.getElem_range]
  · rw [if_neg hk, if_neg fun h => hk (Fin.le_def.mpr (by omega))]

end Sys2Proof.Machine

namespace Sys2Proof.Safety
open Sys2Proof.Machine

/-! ## What an instruction that stores a run of bytes at I does -/

/-- What a handler raises is the fault its instruction takes. -/
theorem FaultsWith.of_raised {i : Instr} {s : State} {kind : FaultKind} {info : Option FaultInfo}
    (hexec : exec i s = complete (encode i) s (.raised ⟨kind, info⟩)) : FaultsWith i s kind info := hexec

section
variable {i : Instr} {s : State} {bytes : List Byte}
variable (hexec : exec i s = complete (encode i) s (advanceOr (s.writeBytes (s.dataAddr 0) bytes)))
include hexec

theorem FaultsWith.of_font_store (hb : bytes ≠ []) (hpolicy : s.params.fontWrite = .fault) (hi : s.i.toNat ≤ 0x4F) :
    FaultsWith i s .fontRegionWrite (some (.addr s.i.toNat)) := by
  rw [State.dataAddr_zero, s.writeBytes_font s.i.toNat bytes hb hi hpolicy] at hexec
  exact .of_raised hexec

/-- A run of at most 16 bytes that passes 0xFFF starts above the font region. -/
theorem FaultsWith.of_store_past_end (hlen : bytes.length ≤ 16) (hrange : 0x1000 < s.i.toNat + bytes.length) :
    FaultsWith i s .addressOutOfRange (some (.addr 0x1000)) := by
  rw [s.writeBytes_range bytes (s.dataAddr 0) s.dataAddr_zero_le hrange (.inr (by rw [State.dataAddr_zero]; omega))] at hexec
  exact .of_raised hexec

/-- Where every byte may be stored: the run reads back from I on, every other byte and the rest of the state are as before. -/
theorem exec_of_store (hrange : s.i.toNat + bytes.length ≤ 0x1000) (hfont : s.params.fontWrite = .write ∨ 0x4F < s.i.toNat) :
    ∃ t, exec i s = .next t ∧ (∀ k, k < bytes.length → t.byteAt (s.i.toNat + k) = bytes.getD k 0) ∧
      (∀ a, a < s.i.toNat ∨ s.i.toNat + bytes.length ≤ a → t.byteAt a = s.byteAt a) ∧
      t = { s with mem := t.mem, pc := s.pc + 2 } := by
  rw [State.dataAddr_zero, s.writeBytes_ok bytes s.i.toNat hrange hfont] at hexec
  refine ⟨_, hexec.trans (complete_advance _ s _), fun k hk => ?_, fun a ha => ?_, rfl⟩
  · refine (s.byteAt_storeBytes s.i.toNat bytes (s.i.toNat + k)).trans ?_
    rw [if_pos (by omega), Nat.add_sub_cancel_left]
  · exact (s.byteAt_storeBytes s.i.toNat bytes a).trans (if_neg (by omega))

end

end Sys2Proof.Safety

namespace Sys2Proof.Proofs
open Sys2Proof.Machine Sys2Proof.Safety

/-- Settles O43: 12 bits of the sum stay in I, and VF is written whatever x is. -/
theorem addToIndexWritesFlagByParameter : Obligations.AddToIndexWritesFlagByParameter := by
  refine ⟨.of_getElem? 30 rfl fun _ => rfl, fun s x =>
    ⟨_, exec_addI s x, BitVec.toNat_ofNat _ 12, fun hp => ?preAdd, fun hp => ?sumOverflow, fun k hk => ?others, rfl⟩⟩
  case preAdd => exact (State.reg_setVF _ _ 15).trans (by rw [if_pos rfl, hp, addIFlag_preAdd])
  case sumOverflow => exact (State.reg_setVF _ _ 15).trans (by rw [if_pos rfl, hp, addIFlag_sumOverflow])
  case others => exact (State.reg_setVF _ _ k).trans (if_neg hk)

/-- Settles O44: the run is the three digits, so it passes 0xFFF from I = 0xFFE on. -/
theorem bcdStoresThreeDigitsOrFaults : Obligations.BcdStoresThreeDigitsOrFaults := by
  refine ⟨.of_getElem? 32 rfl fun _ => rfl, fun s x => ?_⟩
  have hlen : (bcdDigits (s.reg x)).length = 3 := rfl
  refine ⟨.of_font_store rfl (List.cons_ne_nil _ _), fun hrange => .of_store_past_end rfl (by omega) (by omega), fun hrange hfont => ?_⟩
  obtain ⟨t, hexec, hstored, hothers, hframe⟩ := exec_of_store (i := .ldB x) rfl (by omega) hfont
  obtain ⟨hhundreds, htens, hones⟩ := toNat_getD_bcdDigits (s.reg x)
  rw [← hstored 0 (by omega)] at hhundreds
  rw [← hstored 1 (by omega)] at htens
  rw [← hstored 2 (by omega)] at hones
  exact ⟨t, hexec, hhundreds, htens, hones, fun a ha => hothers a (by omega), hframe⟩

/-- Settles O45: the run is V0 to Vx, x + 1 bytes. -/
theorem storeRegistersOrFaults : Obligations.StoreRegistersOrFaults := by
  refine ⟨.of_getElem? 33 rfl fun _ => rfl, fun s x => ?_⟩
  have hx := x.isLt
  have hlen := s.length_regsUpTo x
  refine ⟨.of_font_store rfl (List.ne_nil_of_length_pos (by omega)), fun hrange => .of_store_past_end rfl (by omega) (by omega),
    fun hrange hfont => ?_⟩
  obtain ⟨t, hexec, hstored, hothers, hframe⟩ := exec_of_store (i := .ldMemVx x) rfl (by omega) hfont
  refine ⟨t, hexec, fun k hk => ?_, fun a ha => hothers a (by omega), hframe⟩
  have hkx : k.val ≤ x.val := hk
  rw [hstored k.val (by omega), s.getD_regsUpTo x k hk]

/-- Settles O46: every byte is read before a register is written, and reads are not checked against the font region. -/
theorem loadRegistersOrFaults : Obligations.LoadRegistersOrFaults := by
  refine ⟨.of_getElem? 34 rfl fun _ => rfl, fun s x =>
    ⟨fun hrange => .of_raised (exec_ldVxMem_range s (by omega)), fun hrange => ?_⟩⟩
  refine ⟨_, exec_ldVxMem_ok s (by omega), fun k => s.reg_setRegsFrom_range x k _, ?_⟩
  rw [State.advance_eq, State.setRegsFrom_frame]

/-- Settles O41: five times any byte still fits I. -/
theorem loadIndexAndFontAddress : Obligations.LoadIndexAndFontAddress :=
  ⟨.of_getElem? 20 rfl fun _ => rfl, .of_getElem? 31 rfl fun _ => rfl, fun s nnn x =>
    ⟨exec_ldI s nnn, _, exec_ldF s x, toNat_ofNat_mul_five (s.reg x), rfl⟩⟩

end Sys2Proof.Proofs
end

/-! # The statements of 44_display: CLS and DRW

What DRW does is said once over the list of cells it flips (`Drew`, `exec_drw`); `mem_litCells` says that these are the cells the sprite
lights. The second of two draws flips the same list, so each cell is flipped twice (`Drew.again`). -/

section
namespace Sys2Proof.Machine

variable (s : State)

/-! ## CLS -/

theorem exec_cls : exec .cls s =
    .next { s with disp := Display.blank, events := s.events ++ [.clearAll, .flush], pc := s.pc + 2 } :=
  complete_advance (encode .cls) s _

/-! ## The cells a draw flips -/

/-- The sprite's rows, as R212 reads them from `I` on. -/
def State.spriteRows (n : Nib) : List Byte := (List.range n.val).map fun r => s.byteAt (s.i.toNat + r)

@[simp] theorem State.length_spriteRows (n : Nib) : (s.spriteRows n).length = n.val := by simp [State.spriteRows]

theorem State.getD_spriteRows {n : Nib} {r : Nat} (h : r < n.val) : (s.spriteRows n).getD r 0 = s.byteAt (s.i.toNat + r) := by
  simp [State.spriteRows, List.getD_eq_getElem?_getD, h]

/-- The cells `DRW Vx, Vy, n` flips, in its loop order. -/
def State.litCells (x y n : Nib) : List (Fin 64 × Fin 32) := spriteCells (s.reg x).toNat (s.reg y).toNat (s.spriteRows n)

theorem State.litCells_nodup (x y n : Nib) : (s.litCells x y n).Nodup := by
  have hn := n.isLt
  exact spriteCells_nodup _ _ _ (by rw [State.length_spriteRows]; omega)

/-- The cells depend on the coordinates and the sprite's bytes only. -/
theorem State.litCells_congr {s s' : State} {x y x' y' n : Nib} (hx : s'.reg x' = s.reg x) (hy : s'.reg y' = s.reg y)
    (hbytes : ∀ r, r < n.val → s'.byteAt (s'.i.toNat + r) = s.byteAt (s.i.toNat + r)) :
    s'.litCells x' y' n = s.litCells x y n := by
  have hrows : s'.spriteRows n = s.spriteRows n := List.map_congr_left fun r hr => hbytes r (List.mem_range.mp hr)
  rw [State.litCells, State.litCells, hx, hy, hrows]

/-! ## How many cells a draw flips -/

/-- The number of 1 bits of a sprite row. -/
def rowBits (row : Byte) : Nat := ((List.range 8).filter row.getLsbD).length

/-- The columns run from bit 7 down, the count from bit 0 up. -/
theorem length_rowCells (ox cy : Nat) (row : Byte) : (rowCells ox cy row).length = rowBits row := by
  have hcolumns : [7, 6, 5, 4, 3, 2, 1, 0] = [0, 1, 2, 3, 4, 5, 6, 7].map fun b => 7 - b := rfl
  have hbits : List.range 8 = [7, 6, 5, 4, 3, 2, 1, 0].reverse := rfl
  rw [rowBits, hbits, List.filter_reverse, List.length_reverse, hcolumns, List.filter_map, List.length_map, rowCells,
    List.length_map]
  rfl

theorem length_spriteCells (ox oy : Nat) (rows : List Byte) : (spriteCells ox oy rows).length = (rows.map rowBits).sum := by
  induction rows generalizing oy with
  | nil => rfl
  | cons row rest ih => rw [spriteCells, List.length_append, length_rowCells, ih, List.map_cons, List.sum_cons]

theorem State.length_litCells (x y n : Nib) :
    (s.litCells x y n).length = ((List.range n.val).map fun r => rowBits (s.byteAt (s.i.toNat + r))).sum := by
  rw [State.litCells, length_spriteCells, State.spriteRows, List.map_map]
  rfl

/-! ## What a draw does -/

/-- The event of a flipped cell (R212): its new value. -/
def flipEvent (d : Display) (c : Fin 64 × Fin 32) : DisplayEvent := .setCell c.1 c.2 (!d.cell c)

/-- From a cell's event the cell is known, so cells without a repeat give events without one. -/
theorem flipEvent_injective (d : Display) : Function.Injective (flipEvent d) := by
  intro c e h
  obtain ⟨hx, hy, _⟩ := DisplayEvent.setCell.inj h
  exact Prod.ext hx hy

/-- `t` is `s` after a completed draw that flipped `cells` (R212). -/
structure Drew (s : State) (cells : List (Fin 64 × Fin 32)) (t : State) : Prop where
  cell : ∀ c, t.disp.cell c = if c ∈ cells then !s.disp.cell c else s.disp.cell c
  collision : t.reg 15 = flagByte (cells.any s.disp.cell)
  reg : ∀ k, k ≠ 15 → t.reg k = s.reg k
  events : t.events = s.events ++ cells.map (flipEvent s.disp) ++ [.flush]
  frame : t = { s with disp := t.disp, v := t.v, events := t.events, pc := s.pc + 2 }

/-- R212: nothing is drawn when a row lies past the end of the address space. -/
theorem exec_drw_range {x y n : Nib} (h : 0x1000 < s.i.toNat + n.val) : exec (.drw x y n) s =
    complete (encode (.drw x y n)) s (.raised ⟨.addressOutOfRange, some (.addr 0x1000)⟩) := by
  rw [exec, execDrw, s.readBytes_error _ _ s.dataAddr_zero_le h]

/-- R212: inside the address space the sprite's cells are flipped. -/
theorem exec_drw (x y : Nib) {n : Nib} (h : s.i.toNat + n.val ≤ 0x1000) :
    ∃ t, exec (.drw x y n) s = .next t ∧ Drew s (s.litCells x y n) t := by
  have hnodup := s.litCells_nodup x y n
  have hexec : exec (.drw x y n) s = complete (encode (.drw x y n)) s
      (.advance (s.drawSprite (s.reg x).toNat (s.reg y).toNat (s.spriteRows n))) := by
    rw [exec, execDrw, State.dataAddr_zero, s.readBytes_ok _ _ h]
    rfl
  refine ⟨_, hexec.trans (complete_advance _ s _), ?cell, ?collision, fun k hk => ?reg, ?events, rfl⟩
  case cell => exact flipCells_disp _ ⟨s.disp, false, []⟩ hnodup
  case collision =>
    refine (State.reg_setVF _ _ 15).trans ((if_pos rfl).trans (congrArg flagByte ?_))
    exact (flipCells_collided _ ⟨s.disp, false, []⟩ hnodup).trans (Bool.false_or _)
  case reg => exact (State.reg_setVF _ _ k).trans ((if_neg hk).trans ((s.reg_setVF 0 k).trans (if_neg hk)))
  case events =>
    have hevents := flipCells_events _ ⟨s.disp, false, []⟩ hnodup
    rw [List.append_assoc]
    exact congrArg (fun es => s.events ++ (es ++ [.flush])) hevents

section
variable {s} {t : State} {cells : List (Fin 64 × Fin 32)}

theorem Drew.cell_of_mem (h : Drew s cells t) {c : Fin 64 × Fin 32} (hc : c ∈ cells) : t.disp.cell c = !s.disp.cell c :=
  (h.cell c).trans (if_pos hc)

theorem Drew.cell_of_not_mem (h : Drew s cells t) {c : Fin 64 × Fin 32} (hc : c ∉ cells) : t.disp.cell c = s.disp.cell c :=
  (h.cell c).trans (if_neg hc)

theorem Drew.vf_of_on (h : Drew s cells t) {c : Fin 64 × Fin 32} (hc : c ∈ cells) (hon : s.disp.cell c = true) :
    t.reg 15 = 1 := by
  rw [h.collision, List.any_eq_true.mpr ⟨c, hc, hon⟩]
  rfl

theorem Drew.vf_of_all_off (h : Drew s cells t) (hoff : ∀ c ∈ cells, s.disp.cell c = false) : t.reg 15 = 0 := by
  rw [h.collision, List.any_eq_false.mpr fun c hc => ne_true_of_eq_false (hoff c hc)]
  rfl

/-- Flipping the same cells of the buffer a draw left: each is flipped back. -/
theorem Drew.again (h : Drew s cells t) {s' u : State} (hu : Drew s' cells u) (hdisp : s'.disp = t.disp) : u.disp = s.disp := by
  refine Display.ext_cell _ _ fun c => ?_
  by_cases hc : c ∈ cells
  · rw [hu.cell_of_mem hc, hdisp, h.cell_of_mem hc, Bool.not_not]
  · rw [hu.cell_of_not_mem hc, hdisp, h.cell_of_not_mem hc]

/-- The second draw collides on a cell the first one switched on. -/
theorem Drew.again_vf_of_off (h : Drew s cells t) {s' u : State} (hu : Drew s' cells u) (hdisp : s'.disp = t.disp)
    {c : Fin 64 × Fin 32} (hc : c ∈ cells) (hoff : s.disp.cell c = false) : u.reg 15 = 1 :=
  hu.vf_of_on hc (by rw [hdisp, h.cell_of_mem hc, hoff, Bool.not_false])

/-- With the coordinates out of VF, a draw leaves everything its cells depend on. -/
theorem Drew.litCells (h : Drew s cells t) {x y : Nib} (n : Nib) (hx : x ≠ 15) (hy : y ≠ 15) :
    t.litCells x y n = s.litCells x y n := by
  refine State.litCells_congr (h.reg x hx) (h.reg y hy) fun r _ => ?_
  rw [h.frame]
  rfl

end

end Sys2Proof.Machine

namespace Sys2Proof.Safety
open Sys2Proof.Machine

/-! ## The cells a draw flips are the cells its sprite lights -/

section
variable {s : State} {x y n : Nib}

theorem mem_litCells {c : Fin 64 × Fin 32} : c ∈ s.litCells x y n ↔ SpriteLights s x y n c := by
  rw [State.litCells, mem_spriteCells, State.length_spriteRows]
  constructor
  · rintro ⟨r, hr, b, hb, hbit, rfl⟩
    exact ⟨r, b, hr, hb, s.getD_spriteRows hr ▸ hbit, rfl, rfl⟩
  · rintro ⟨r, b, hr, hb, hbit, hcx, hcy⟩
    exact ⟨r, hr, b, hb, (s.getD_spriteRows hr).symm ▸ hbit, Prod.ext (Fin.ext hcx) (Fin.ext hcy)⟩

/-- A 1 bit anywhere in the sprite is a flipped cell; bit `b` stands in column `7 - b`. -/
theorem exists_mem_litCells {r b : Nat} (hr : r < n.val) (hb : b < 8) (hbit : (s.byteAt (s.i.toNat + r)).getLsbD b = true) :
    ∃ c, c ∈ s.litCells x y n := by
  have hb' : 7 - (7 - b) = b := by omega
  refine ⟨wrapCell ((s.reg x).toNat + (7 - b)) ((s.reg y).toNat + r), mem_litCells.mpr ⟨r, 7 - b, hr, by omega, ?_, rfl, rfl⟩⟩
  rwa [hb']

end

end Sys2Proof.Safety

namespace Sys2Proof.Proofs
open Sys2Proof.Machine Sys2Proof.Safety

/-- Settles O50: the flipped cells are the lit ones, and a cell's event tells the cell. -/
theorem drawFlipsExactlyTheSpriteCells : Obligations.DrawFlipsExactlyTheSpriteCells := by
  refine ⟨.of_getElem? 23 rfl fun _ => rfl, fun s x y n => ⟨fun h => .of_raised (exec_drw_range s h), fun h => ?_⟩⟩
  obtain ⟨t, hexec, hdrew⟩ := exec_drw s x y h
  refine ⟨t, (s.litCells x y n).map (flipEvent s.disp), hexec, fun c => ⟨fun hc => ?lit, fun hc => ?unlit⟩, ?collision, ?noCollision,
    hdrew.reg, hdrew.events, (s.litCells_nodup x y n).map (flipEvent_injective s.disp), fun e => ?event, hdrew.frame⟩
  case lit => exact hdrew.cell_of_mem (mem_litCells.mpr hc)
  case unlit => exact hdrew.cell_of_not_mem (mt mem_litCells.mp hc)
  case collision =>
    rintro ⟨c, hc, hon⟩
    exact hdrew.vf_of_on (mem_litCells.mpr hc) hon
  case noCollision => exact fun hoff => hdrew.vf_of_all_off fun c hc => hoff c (mem_litCells.mp hc)
  case event => exact List.mem_map.trans (exists_congr fun c => and_congr mem_litCells eq_comm)

/-- Settles O51: the two draws flip the same cells, whatever registers and address the second takes them from. -/
theorem drawingTwiceRestoresTheBuffer : Obligations.DrawingTwiceRestoresTheBuffer := by
  intro s x y n h
  obtain ⟨t, hexec, ht⟩ := exec_drw s x y h
  refine ⟨t, hexec, fun s' x' y' hdisp hx hy h' hbytes => ?_⟩
  obtain ⟨u, hexec', hu⟩ := exec_drw s' x' y' h'
  rw [State.litCells_congr hx hy hbytes] at hu
  refine ⟨u, hexec', ht.again hu hdisp, ?collision, fun hon => ?noCollision⟩
  case collision =>
    rintro ⟨c, hc, hoff⟩
    exact ht.again_vf_of_off hu hdisp (mem_litCells.mpr hc) hoff
  case noCollision =>
    refine hu.vf_of_all_off fun c hc => ?_
    rw [hdisp, ht.cell_of_mem hc, hon c (mem_litCells.mp hc), Bool.not_true]

/-- Settles O52: neither x nor y is VF, so the second draw finds the same coordinates, and a lit cell is on. -/
theorem drawingTwiceFromAllOff : Obligations.DrawingTwiceFromAllOff := by
  intro s x y n hoff h hx hy
  obtain ⟨t, hexec, ht⟩ := exec_drw s x y h
  have hi : t.i = s.i := by rw [ht.frame]
  obtain ⟨u, hexec', hu⟩ := exec_drw t x y (n := n) (hi ▸ h)
  rw [ht.litCells n hx hy] at hu
  refine ⟨t, u, hexec, ht.vf_of_all_off fun c _ => hoff c, hexec', fun c => ?restored, ?collision⟩
  case restored => rw [ht.again hu rfl, hoff c]
  case collision =>
    rintro ⟨r, b, hr, hb, hbit⟩
    obtain ⟨c, hc⟩ := exists_mem_litCells (x := x) (y := y) hr hb hbit
    exact ht.again_vf_of_off hu rfl hc (hoff c)

/-- Settles O53: one event for each flipped cell, and one flipped cell for each 1 bit. -/
theorem drawEmitsOneEventPerBit : Obligations.DrawEmitsOneEventPerBit := by
  intro s x y n h
  obtain ⟨t, hexec, hdrew⟩ := exec_drw s x y h
  refine ⟨t, _, hexec, hdrew.events, fun e he => ?_, (List.length_map _).trans (s.length_litCells x y n)⟩
  obtain ⟨c, _, rfl⟩ := List.mem_map.mp he
  exact ⟨c.1, c.2, _, rfl⟩

/-- Settles O49: the blank buffer has every cell off. -/
theorem clearTurnsEveryCellOff : Obligations.ClearTurnsEveryCellOff :=
  ⟨.of_getElem? 0 rfl fun _ => rfl, fun s => ⟨_, exec_cls s, Display.cell_blank, rfl, rfl⟩⟩

end Sys2Proof.Proofs
end

/-! # The statements of 45_timers_keys: the key skips, LD Vx, K, the timer moves, and TimerTick

Whether Vx names a key decides the skips, and whether the list of pressed keys is empty decides LD Vx, K (`pressedKeys_eq_nil_iff`).
`TimerTick` stops at 0 because its subtraction is one of naturals (`ofNat_toNat_sub_one`). -/

section
namespace Sys2Proof.Machine

variable (s : State)

/-! ## SKP and SKNP -/

section
variable {x : Nib}

theorem exec_skp_key (h : (s.reg x).toNat < 16) : exec (.skp x) s =
    .next { s with pc := if s.keys.getLsbD (s.reg x).toNat then s.pc + 4 else s.pc + 2 } := by
  rw [exec, execSkp, keyIndex_ok _ h]
  exact complete_skipIf _ s _

theorem exec_sknp_key (h : (s.reg x).toNat < 16) : exec (.sknp x) s =
    .next { s with pc := if s.keys.getLsbD (s.reg x).toNat then s.pc + 2 else s.pc + 4 } := by
  rw [exec, execSknp, keyIndex_ok _ h]
  simp only [complete_skipIf, keyPressed, Bool.not_eq_true', ← Bool.not_eq_true, ite_not]

theorem exec_skp_no_key (h : ¬ (s.reg x).toNat < 16) : exec (.skp x) s =
    complete (encode (.skp x)) s (.raised ⟨.keyIndexOutOfRange, some (.value (s.reg x))⟩) := by
  rw [exec, execSkp, keyIndex_error _ h]

theorem exec_sknp_no_key (h : ¬ (s.reg x).toNat < 16) : exec (.sknp x) s =
    complete (encode (.sknp x)) s (.raised ⟨.keyIndexOutOfRange, some (.value (s.reg x))⟩) := by
  rw [exec, execSknp, keyIndex_error _ h]

end

/-! ## LD Vx, K -/

/-- The set `P` of R234 is empty when every bit of the sample is 0. -/
theorem pressedKeys_eq_nil_iff {keys : BitVec 16} : pressedKeys keys = [] ↔ keys = 0 := by
  simp only [List.eq_nil_iff_forall_not_mem, mem_pressedKeys, keyPressed]
  constructor
  · exact fun h => BitVec.eq_of_getLsbD_eq fun k hk => (Bool.eq_false_iff.mpr (h ⟨k, hk⟩)).trans BitVec.getLsbD_zero.symm
  · rintro rfl k
    simp

theorem exec_ldVxK_no_key (x : Nib) (h : s.keys = 0) : exec (.ldVxK x) s = .next s := by
  rw [exec, execLdVxK, pressedKeys_eq_nil_iff.mpr h]
  rfl

/-- R234: with keys pressed, Vx is written with one of them and the draw is counted. -/
theorem exec_ldVxK_pressed (x : Nib) (h : s.keys ≠ 0) : ∃ k : Nib, keyPressed s.keys k = true ∧
    exec (.ldVxK x) s = complete (encode (.ldVxK x)) s (.advance (s.setV x k.val).countDraw) := by
  obtain ⟨first, others, hp⟩ := List.exists_cons_of_ne_nil (mt pressedKeys_eq_nil_iff.mp h)
  refine ⟨chooseKey (Config.keyChoice s.draws) first others, (mem_pressedKeys _ _).mp (hp ▸ chooseKey_mem _ _ _), ?_⟩
  rw [exec, execLdVxK, hp]

/-- A key number fits the register it is written to. -/
theorem State.toNat_reg_setV_key (x k : Nib) : ((s.setV x k.val).reg x).toNat = k.val := by
  have hk := k.isLt
  rw [State.reg_setV, if_pos rfl, BitVec.toNat_ofNat]
  omega

/-! ## TimerTick -/

/-- Counting a timer down as naturals: it stays at 0 (R237). -/
theorem ofNat_toNat_sub_one (v : Byte) : BitVec.ofNat 8 (v.toNat - 1) = if v = 0 then 0 else v - 1 := by
  split
  case isTrue hzero => rw [hzero]; rfl
  case isFalse hne => bv_omega

theorem timerTick_standard (hf : s.fault = none) (hp : s.params.timerKeyOps = .standard) :
    s.timerTick = { s with dt := if s.dt = 0 then 0 else s.dt - 1, st := if s.st = 0 then 0 else s.st - 1 } := by
  have hrunning : s.halted = false := Option.isSome_eq_false_iff.mpr (Option.isNone_iff_eq_none.mpr hf)
  simp only [State.timerTick, hrunning, hp, ofNat_toNat_sub_one]
  rfl

theorem timerTick_absent (hp : s.params.timerKeyOps = .absent) : s.timerTick = s := by
  simp only [State.timerTick, hp, ite_self]

theorem step_of_pending_timerTick {s : State} {rest : List HostOp} (hp : s.pending = .timerTick :: rest) :
    step s = .next { s with pending := rest }.timerTick := by
  simp only [step, performNext, hp, performOp]

end Sys2Proof.Machine

namespace Sys2Proof.Proofs
open Sys2Proof.Machine Sys2Proof.Safety

/-- Settles O54: up to 15 the value of Vx is the number of a key, above it of none. -/
theorem keySkipsFollowTheSample : Obligations.KeySkipsFollowTheSample := by
  refine ⟨.of_getElem? 24 rfl fun _ => rfl, .of_getElem? 25 rfl fun _ => rfl, fun s x => ⟨fun h => ?key, fun h => ?noKey⟩⟩
  case key => exact ⟨exec_skp_key s (Nat.lt_succ_of_le h), exec_sknp_key s (Nat.lt_succ_of_le h)⟩
  case noKey => exact ⟨.of_raised (exec_skp_no_key s (Nat.not_lt.mpr h)), .of_raised (exec_sknp_no_key s (Nat.not_lt.mpr h))⟩

/-- Settles O55: nothing is asked of the free value, which picks from the list of the pressed keys. -/
theorem waitForKeyTakesAPressedKey : Obligations.WaitForKeyTakesAPressedKey := by
  refine ⟨.of_getElem? 27 rfl fun _ => rfl, fun s x => ⟨exec_ldVxK_no_key s x, fun h => ?_⟩⟩
  obtain ⟨k, hpressed, hexec⟩ := exec_ldVxK_pressed s x h
  exact ⟨_, k.val, hexec.trans (complete_advance _ s _), k.isLt, hpressed, s.toNat_reg_setV_key x k,
    fun j hj => (s.reg_setV x j k.val).trans (if_neg hj), rfl⟩

/-- Settles O56: a timer is a byte, as a register is. -/
theorem timerMoves : Obligations.TimerMoves :=
  ⟨.of_getElem? 26 rfl fun _ => rfl, .of_getElem? 28 rfl fun _ => rfl, .of_getElem? 29 rfl fun _ => rfl, fun s x =>
    ⟨.of_setV rfl (ofNat_toNat_byte s.dt), complete_advance (encode (.ldDtVx x)) s _, complete_advance (encode (.ldStVx x)) s _⟩⟩

/-- Settles O57: taking the tick from the queue changes neither of the two things `TimerTick` asks about. -/
theorem tickCountsTheTimersDown : Obligations.TickCountsTheTimersDown := by
  intro s rest hp
  rw [step_of_pending_timerTick hp]
  refine ⟨fun hf hstandard => congrArg _ ?runs, fun h => congrArg _ (h.elim ?halted ?absent)⟩
  case runs => exact timerTick_standard { s with pending := rest } hf hstandard
  case halted => exact timerTick_halted (s := { s with pending := rest })
  case absent => exact timerTick_absent { s with pending := rest }

end Sys2Proof.Proofs
end

/-! # The statements of 60_exceptions: every step answers, what a fault leaves, which instruction raises it, the sink, the key sample

`Effect` takes a fault in one arm of its own (`Effect.fault_of_running`), so a recorded fault is one that `CanRaise` allows. What a step
does to the display is told by the events it appends (`DisplayStep`). An instruction that does not ask about the key sample has one answer
under any sample (`IgnoresKeys`). -/

section
namespace Sys2Proof.Machine

open Sys2Proof.Safety

/-! ## Every step answers -/

/-- A handler that looks at the state answers through `complete`, whichever way it goes; the others answer outright. -/
theorem exec_next (i : Instr) (s : State) : ∃ t, exec i s = .next t := by
  cases i with
  | ret | sys | call | drw | ldB | ldMemVx | ldVxMem => exact complete_next _ s _
  | seImm | sneImm | seReg | sneReg | skp | sknp | ldVxK => exact complete_next _ s _
  | _ => exact ⟨_, rfl⟩

theorem runStep_next (s : State) : ∃ t, runStep s = .next t := by
  rcases runStep_cases s with ⟨_, he⟩ | ⟨_, _, he⟩ | ⟨_, _, _, _, he⟩ | ⟨_, _, i, _, he⟩
  · exact ⟨_, he⟩
  · exact ⟨_, he⟩
  · exact ⟨_, he⟩
  · exact he ▸ exec_next i s.markStarted

/-! ## The fault an instruction takes -/

@[simp] theorem State.setRegsFrom_fault (s : State) (a : Nat) (bytes : List Byte) : (s.setRegsFrom a bytes).fault = s.fault := by
  rw [State.setRegsFrom_frame]

section
variable {s t : State} {i : Instr} {k : FaultKind} {info : Option FaultInfo}

/-- In a running machine a record comes from the arm of `Effect` that takes a fault. -/
theorem Effect.fault_of_running (h : Effect s i t) (hs : s.fault = none) (ht : t.fault ≠ none) : ∃ k info,
    CanRaise s i k info ∧ t = { s with started := true, fault := some ⟨k, some (encode i), s.pc, info⟩ } := by
  cases h with
  | fault i k info hraise => exact ⟨k, info, hraise, rfl⟩
  | load => exact absurd ((s.setRegsFrom_fault 0 _).trans hs) ht
  | _ => exact absurd hs ht

theorem CanRaise.not_shift (h : CanRaise s i k info) (x : Nib) : i ≠ .shr x ∧ i ≠ .shl x := by
  cases h with
  | overflow | underflow | sys => simp
  | range i hi => rcases hi with ⟨_, _, _, rfl⟩ | ⟨_, rfl | rfl | rfl⟩ <;> simp
  | font i a hi => rcases hi with ⟨_, rfl | rfl⟩ <;> simp
  | key i v hi => rcases hi with ⟨_, rfl | rfl⟩ <;> simp

/-- The word of an instruction that raises is fixed by its fields (30_encoding R88), so it is the word that was fetched. -/
theorem CanRaise.encode_of_decode (h : CanRaise s i k info) {p : Config.TimerKeyOps} {w : Word} (hd : decode p w = .ok i) :
    encode i = w := by
  obtain hw | ⟨⟨x, hshr | hshl⟩, _⟩ := isWordOf_of_decode hd
  · exact hw.symm
  · exact absurd hshr (h.not_shift x).1
  · exact absurd hshl (h.not_shift x).2

theorem CanRaise.recordShape (h : CanRaise s i k info) (w : Word) (pc : Addr) : RecordShape ⟨k, some w, pc, info⟩ := by
  cases h with
  | overflow | underflow | sys => exact ⟨rfl, rfl⟩
  | range => exact rfl
  | font i a _ ha => exact ⟨⟨a, ha, rfl⟩, rfl⟩
  | key i v _ hv => exact ⟨⟨v, Nat.not_lt.mp hv, rfl⟩, rfl⟩

/-- A `Step` of a running machine faults in the fetch, in the decoder or in the instruction; each leaves the record only (R251). -/
theorem runStep_fault (hs : s.fault = none) (h : runStep s = .next t) (ht : t.fault ≠ none) :
    ∃ r, t = { s with fault := some r, started := true } ∧ r.pc = s.pc ∧ RecordShape r ∧
      r.instr = if s.pc = 0xFFF then none else some (wordOfBytes (s.byteAt s.pc.toNat) (s.byteAt (s.pc.toNat + 1))) := by
  rcases runStep_cases s with ⟨hhalted, _⟩ | ⟨_, hpc, he⟩ | ⟨_, hpc, _, _, he⟩ | ⟨_, hpc, i, hd, he⟩
  · exact absurd hs hhalted
  · obtain rfl := Host.Outcome.next.inj (he.symm.trans h)
    exact ⟨_, rfl, rfl, rfl, (if_pos (BitVec.eq_of_toNat_eq hpc)).symm⟩
  · obtain rfl := Host.Outcome.next.inj (he.symm.trans h)
    exact ⟨_, rfl, rfl, ⟨rfl, rfl⟩, (if_neg (ne_of_apply_ne BitVec.toNat hpc)).symm⟩
  · have heffect := exec_effect i s.markStarted t (he.symm.trans h)
    obtain ⟨k, info, hraise, rfl⟩ := heffect.fault_of_running hs ht
    refine ⟨_, rfl, rfl, hraise.recordShape _ _, ?_⟩
    rw [if_neg (ne_of_apply_ne BitVec.toNat hpc), hraise.encode_of_decode hd]
    rfl

end

/-! ## The key sample replaced -/

def State.withKeys (s : State) (keys : BitVec 16) : State := { s with keys := keys }

/-- `i` answers the same whether the key sample is the one in `s` or `keys`, but for the sample itself (R264). -/
def IgnoresKeys (i : Instr) (s : State) (keys : BitVec 16) : Prop :=
  ∃ t, exec i s = .next t ∧ exec i (s.withKeys keys) = .next (t.withKeys keys)

theorem State.setRegsFrom_withKeys (s : State) (keys : BitVec 16) (a : Nat) (bytes : List Byte) :
    (s.withKeys keys).setRegsFrom a bytes = (s.setRegsFrom a bytes).withKeys keys := by
  induction bytes generalizing s a with
  | nil => rfl
  | cons b rest ih =>
    rw [State.setRegsFrom, State.setRegsFrom]
    split
    case isTrue ha => exact ih (s.setV ⟨a, ha⟩ b.toNat) (a + 1)
    case isFalse => rfl

/-- R212: inside the address space the rows from I on are drawn. -/
theorem exec_drw_ok (s : State) (x y : Nib) {n : Nib} (h : s.i.toNat + n.val ≤ 0x1000) : exec (.drw x y n) s =
    .next (s.drawSprite (s.reg x).toNat (s.reg y).toNat (s.spriteRows n)).advance := by
  rw [exec, execDrw, State.dataAddr_zero, s.readBytes_ok _ _ h]
  rfl

section
variable (s : State) (keys : BitVec 16)

theorem ignoresKeys_sys (nnn : Addr) : IgnoresKeys (.sys nnn) s keys := by
  cases hp : s.params.sysPolicy with
  | nop => exact ⟨_, exec_sys_nop s nnn hp, exec_sys_nop (s.withKeys keys) nnn hp⟩
  | fault => exact ⟨_, exec_sys_fault s nnn hp, exec_sys_fault (s.withKeys keys) nnn hp⟩

theorem ignoresKeys_ret : IgnoresKeys .ret s keys := by
  by_cases hsp : s.sp.val = 0
  · exact ⟨_, exec_ret_underflow s hsp, exec_ret_underflow (s.withKeys keys) hsp⟩
  · have hlt : s.sp.val - 1 < Config.stackDepth := by omega
    have hsucc : s.sp.val = s.sp.val - 1 + 1 := by omega
    exact ⟨_, exec_ret_pop s hlt hsucc, exec_ret_pop (s.withKeys keys) hlt hsucc⟩

theorem ignoresKeys_call (nnn : Addr) : IgnoresKeys (.call nnn) s keys := by
  by_cases hsp : s.sp.val < Config.stackDepth
  · exact ⟨_, exec_call_push s nnn hsp, exec_call_push (s.withKeys keys) nnn hsp⟩
  · exact ⟨_, exec_call_overflow s nnn hsp, exec_call_overflow (s.withKeys keys) nnn hsp⟩

theorem ignoresKeys_drw (x y n : Nib) : IgnoresKeys (.drw x y n) s keys := by
  by_cases hrange : s.i.toNat + n.val ≤ 0x1000
  · exact ⟨_, exec_drw_ok s x y hrange, exec_drw_ok (s.withKeys keys) x y hrange⟩
  · have hend : 0x1000 < s.i.toNat + n.val := Nat.lt_of_not_le hrange
    exact ⟨_, exec_drw_range s hend, exec_drw_range (s.withKeys keys) hend⟩

theorem ignoresKeys_ldVxMem (x : Nib) : IgnoresKeys (.ldVxMem x) s keys := by
  by_cases hrange : s.i.toNat + (x.val + 1) ≤ 0x1000
  · refine ⟨_, exec_ldVxMem_ok s hrange, (exec_ldVxMem_ok (s.withKeys keys) hrange).trans ?_⟩
    rw [State.setRegsFrom_withKeys]
    rfl
  · have hend : 0x1000 < s.i.toNat + (x.val + 1) := Nat.lt_of_not_le hrange
    exact ⟨_, exec_ldVxMem_range s hend, exec_ldVxMem_range (s.withKeys keys) hend⟩

/-- An instruction that stores a run of bytes at I (43_index_memory R193, R194). -/
theorem ignoresKeys_of_store {s : State} {keys : BitVec 16} {i : Instr} {bytes : List Byte} (hb : bytes ≠ [])
    (hexec : exec i s = complete (encode i) s (advanceOr (s.writeBytes (s.dataAddr 0) bytes)))
    (hexec' : exec i (s.withKeys keys) =
      complete (encode i) (s.withKeys keys) (advanceOr ((s.withKeys keys).writeBytes (s.dataAddr 0) bytes))) :
    IgnoresKeys i s keys := by
  have ha := s.dataAddr_zero_le
  rcases s.writeBytes_cases (s.dataAddr 0) bytes ha hb with ⟨hrange, hfont, he⟩ | ⟨hlow, hfont, he⟩ | ⟨hrange, hfont, he⟩
  · rw [he] at hexec
    rw [(s.withKeys keys).writeBytes_ok bytes _ hrange hfont] at hexec'
    exact ⟨_, hexec, hexec'⟩
  · rw [he] at hexec
    rw [(s.withKeys keys).writeBytes_font _ bytes hb hlow hfont] at hexec'
    exact ⟨_, hexec, hexec'⟩
  · rw [he] at hexec
    rw [(s.withKeys keys).writeBytes_range bytes _ ha hrange hfont] at hexec'
    exact ⟨_, hexec, hexec'⟩

/-- What a branching instruction asks about is not the key sample; the instructions left to `_` ask about nothing. -/
theorem ignoresKeys {i : Instr} (hi : ∀ x, i ≠ .skp x ∧ i ≠ .sknp x ∧ i ≠ .ldVxK x) : IgnoresKeys i s keys := by
  cases i with
  | skp x => exact absurd rfl (hi x).1
  | sknp x => exact absurd rfl (hi x).2.1
  | ldVxK x => exact absurd rfl (hi x).2.2
  | sys nnn => exact ignoresKeys_sys s keys nnn
  | ret => exact ignoresKeys_ret s keys
  | call nnn => exact ignoresKeys_call s keys nnn
  | drw x y n => exact ignoresKeys_drw s keys x y n
  | ldVxMem x => exact ignoresKeys_ldVxMem s keys x
  | ldB x => exact ignoresKeys_of_store (List.cons_ne_nil _ _) rfl rfl
  | ldMemVx x => exact ignoresKeys_of_store (bytes := s.regsUpTo x) (List.ne_nil_of_length_pos (by simp)) rfl rfl
  | seImm | sneImm | seReg | sneReg => exact ⟨_, complete_skipIf _ s _, complete_skipIf _ (s.withKeys keys) _⟩
  | _ => exact ⟨_, rfl, rfl⟩

end

/-! ## The sink -/

theorem showEvents_append (d : Display) (es es' : List DisplayEvent) :
    showEvents d (es ++ es') = showEvents (showEvents d es) es' := List.foldl_append

/-- Drawing keeps the sink in step with the buffer, cell by cell; a cell may repeat. -/
theorem showEvents_flipCells (d₀ : Display) (cells : List (Fin 64 × Fin 32)) (d : Drawing)
    (h : showEvents d₀ d.events = d.disp) : showEvents d₀ (cells.foldl flipCell d).events = (cells.foldl flipCell d).disp := by
  induction cells generalizing d with
  | nil => exact h
  | cons c rest ih =>
    refine ih (flipCell d c) ?_
    simp only [flipCell]
    rw [showEvents_append, h]
    rfl

theorem showEvents_drawCells (d : Display) (cells : List (Fin 64 × Fin 32)) :
    showEvents d (drawCells d cells).events = (drawCells d cells).disp :=
  showEvents_flipCells d cells ⟨d, false, []⟩ rfl

/-- The events appended turn the old buffer into the new one. -/
def DisplayStep (s t : State) : Prop := ∃ es, t.events = s.events ++ es ∧ t.disp = showEvents s.disp es

theorem DisplayStep.of_keeps {s t : State} (hevents : t.events = s.events) (hdisp : t.disp = s.disp) : DisplayStep s t :=
  ⟨[], hevents.trans (List.append_nil _).symm, hdisp⟩

theorem DisplayStep.sinkShowsBuffer {s t : State} (h : DisplayStep s t) (hs : SinkShowsBuffer s) : SinkShowsBuffer t := by
  obtain ⟨es, hevents, hdisp⟩ := h
  rw [SinkShowsBuffer, hevents, showEvents_append, hs, hdisp]

theorem Effect.displayStep {s t : State} {i : Instr} (h : Effect s i t) : DisplayStep s t := by
  cases h with
  | cls => exact ⟨_, rfl, rfl⟩
  | drw x y n ox oy rows =>
    refine ⟨_, rfl, ?_⟩
    rw [showEvents_append]
    exact (showEvents_drawCells s.disp _).symm
  | load => exact .of_keeps (s.setRegsFrom_events 0 _) (s.setRegsFrom_disp 0 _)
  | _ => exact .of_keeps rfl rfl

/-- The host's operations and the entry of a fault touch neither the buffer nor the events. -/
theorem step_displayStep (s t : State) (h : step s = .next t) : DisplayStep s t := by
  refine step_induction DisplayStep ?queue ?keys ?load ?tick ?fault ?exec s t h
  case queue => exact fun _ _ _ => .of_keeps rfl rfl
  case keys => exact fun _ _ _ _ h => h
  case load => exact fun _ _ _ _ _ => .of_keeps rfl rfl
  case tick => exact fun _ _ _ _ => .of_keeps rfl rfl
  case fault => exact fun _ _ => .of_keeps rfl rfl
  case exec => exact fun s t i _ hexec => (exec_effect i s.markStarted t hexec).displayStep

end Sys2Proof.Machine

namespace Sys2Proof.Proofs
open Sys2Proof.Machine Sys2Proof.Safety

/-- Settles O17: the events a step appends redraw the buffer from what it was before. -/
theorem sinkAlwaysShowsTheBuffer : Obligations.SinkAlwaysShowsTheBuffer :=
  fun s t hs hstep => (step_displayStep s t hstep).sinkShowsBuffer hs

/-- Settles O10: a handler ends in `complete`, which takes a fault inside the machine. -/
theorem everyStepAnswersNext : Obligations.EveryStepAnswersNext := by
  intro s
  rcases step_cases s with ⟨_, he⟩ | ⟨_, _, _, he⟩ | ⟨_, _, he⟩ | ⟨_, _, _, _, he⟩ | ⟨keys, rest, _, _, he⟩
  · exact he ▸ runStep_next s
  · exact ⟨_, he⟩
  · exact ⟨_, he⟩
  · exact ⟨_, he⟩
  · exact he ▸ runStep_next _

/-- Settles O18: a record is written together with `started`. -/
theorem faultedMachineHasStarted : Obligations.FaultedMachineHasStarted := by
  intro s t hs hstep
  revert hs
  refine step_induction (fun s t => (s.fault ≠ none → s.started = true) → t.fault ≠ none → t.started = true)
    ?queue ?keys ?load ?tick ?fault ?exec s t hstep
  case queue => exact fun _ _ _ hs => hs
  case keys => exact fun _ _ _ _ h => h
  case load => exact fun _ _ _ _ _ hs => hs
  case tick => exact fun _ _ _ _ hs => hs
  case fault => exact fun _ _ _ _ => rfl
  case exec => exact fun s t i _ hexec _ _ => (exec_effect i s.markStarted t hexec).started rfl

/-- Settles O24: `exec` has one answer, so the `t` given is the one `ignoresKeys` speaks of. -/
theorem onlyKeyInstructionsReadTheKeys : Obligations.OnlyKeyInstructionsReadTheKeys := by
  intro i s t keys hi hexec
  obtain ⟨u, hu, hkeys⟩ := ignoresKeys s keys hi
  obtain rfl : u = t := Host.Outcome.next.inj (hu.symm.trans hexec)
  exact hkeys

/-- Settles O13: in a running machine the record is one that `CanRaise` allows, whose arms are the rows of R250. -/
theorem onlyTheNamedInstructionsFault : Obligations.OnlyTheNamedInstructionsFault := by
  intro i s t r hexec hs ht
  obtain ⟨k, info, hraise, rfl⟩ := (exec_effect i s t hexec).fault_of_running hs (ht ▸ Option.some_ne_none r)
  obtain rfl := Option.some.inj ht
  cases hraise with
  | overflow nnn => exact .inl ⟨rfl, nnn, rfl⟩
  | underflow => exact .inr (.inl ⟨rfl, rfl⟩)
  | range i hi => exact .inr (.inr (.inl ⟨rfl, hi⟩))
  | font i a hi _ hpolicy => exact .inr (.inr (.inr (.inl ⟨rfl, hpolicy, hi⟩)))
  | key i v hi => exact .inr (.inr (.inr (.inr (.inl ⟨rfl, hi⟩))))
  | sys nnn hpolicy => exact .inr (.inr (.inr (.inr (.inr ⟨rfl, hpolicy, nnn, rfl⟩))))

/-- Settles O12: both forms of `Step` are `runStep` in the state they begin in, which has the pc and the memory of `s`. -/
theorem faultingStepWritesOnlyTheRecord : Obligations.FaultingStepWritesOnlyTheRecord := by
  intro s u t hbegin hs hstep ht
  rw [hbegin.step_eq_runStep hs] at hstep
  obtain ⟨_, rfl⟩ | ⟨keys, rest, _, rfl⟩ := hbegin
  · exact runStep_fault hs hstep ht
  · exact runStep_fault (s := { s with keys := keys, pending := rest }) hs hstep ht

end Sys2Proof.Proofs
end

/-! # The statements of 70_reset_and_hazards: the state after construction, and LoadProgram

Construction lists no byte, so every address reads as its reset content (`State.byteAt_construct`). An accepted load is one run of
stores from 0x200 on (`State.byteAt_storeBytes_inside`, `State.byteAt_storeBytes_outside`). -/

section
namespace Sys2Proof.Machine

open Sys2Proof.Safety

/-! ## The state after construction -/

section
variable (p : Config.Params)

/-- R280: nothing is listed after construction. -/
@[simp] theorem State.byteAt_construct (a : Nat) : (State.construct p).byteAt a = Memory.initial p.font a := rfl

theorem State.reg_construct (x : Nib) : (State.construct p).reg x = 0x00 :=
  Vector.getElem_replicate x.isLt

theorem State.stack_construct (k : Fin Config.stackDepth) : (State.construct p).stack[k] = 0x000 :=
  Vector.getElem_replicate k.isLt

theorem State.disp_construct : (State.construct p).disp = Display.blank := rfl

theorem memoryCanonical_construct : MemoryCanonical (State.construct p) :=
  ⟨.nil, fun _ hc => absurd hc List.not_mem_nil⟩

theorem fontIntact_construct : FontIntact (State.construct p) :=
  fun a h => (State.byteAt_construct p a).trans (Memory.initial_font p.font a h)

/-- No event was put out yet, so the sink is still blank. -/
theorem sinkShowsBuffer_construct : SinkShowsBuffer (State.construct p) := (State.disp_construct p).symm

/-- The pc is 0x200 and no stack entry is in use. -/
theorem pcAndReturnsEven_construct : PcAndReturnsEven (State.construct p) :=
  ⟨(by decide : (0x200#12).toNat % 2 = 0), fun k hk => absurd hk k.val.not_lt_zero⟩

end

/-! ## LoadProgram -/

theorem step_of_pending_loadProgram {s : State} {bytes : List Byte} {rest : List HostOp}
    (hp : s.pending = .loadProgram bytes :: rest) : step s = .next ({ s with pending := rest }.loadProgram bytes) := by
  simp only [step, performNext, hp, performOp]

section
variable (s : State) (a : Nat) (bytes : List Byte)

theorem State.byteAt_storeBytes_inside {k : Nat} (h : k < bytes.length) : (s.storeBytes a bytes).byteAt (a + k) = bytes[k] := by
  rw [State.byteAt_storeBytes, if_pos (by omega), Nat.add_sub_cancel_left, List.getD_eq_getElem _ _ h]

theorem State.byteAt_storeBytes_outside {c : Nat} (h : c < a ∨ a + bytes.length ≤ c) :
    (s.storeBytes a bytes).byteAt c = s.byteAt c := by
  rw [State.byteAt_storeBytes, if_neg (by omega)]

end

end Sys2Proof.Machine

namespace Sys2Proof.Proofs
open Sys2Proof.Machine Sys2Proof.Safety

/-- Settles O58: taking the operation from the queue changes neither `started` nor memory, which is all a load asks about. -/
theorem loadProgramCopiesOrRefuses : Obligations.LoadProgramCopiesOrRefuses := by
  intro s bytes rest hp
  rw [step_of_pending_loadProgram hp]
  refine ⟨fun hs hlen => ?accepted, fun h => congrArg _ ?refused⟩
  case accepted =>
    rw [loadProgram_accepted { s with pending := rest } bytes hs hlen]
    exact ⟨_, rfl, fun k hk => s.byteAt_storeBytes_inside 0x200 bytes hk, fun a ha => s.byteAt_storeBytes_outside 0x200 bytes ha, rfl⟩
  case refused => exact loadProgram_refused { s with pending := rest } bytes h

/-- Settles O19: the reset state is the construction with the defaults. -/
theorem resetMeetsTheInvariants : Obligations.ResetMeetsTheInvariants := by
  have hconstruct (p : Config.Params) : MemoryCanonical (State.construct p) ∧ FontIntact (State.construct p) ∧
      SinkShowsBuffer (State.construct p) ∧ ((State.construct p).fault ≠ none → (State.construct p).started = true) ∧
      PcAndReturnsEven (State.construct p) :=
    ⟨memoryCanonical_construct p, fontIntact_construct p, sinkShowsBuffer_construct p, fun hf => absurd rfl hf,
      pcAndReturnsEven_construct p⟩
  exact ⟨hconstruct, hconstruct Config.defaults⟩

/-- Settles O21: the registers, memory and display by their lemmas, the other fields as `State.construct` writes them. -/
theorem resetStateIsAsStated : Obligations.ResetStateIsAsStated := by
  refine ⟨?construct, rfl, rfl⟩
  rintro p _ rfl
  refine ⟨State.reg_construct p, rfl, rfl, State.stack_construct p, rfl, fontIntact_construct p, fun a ha _ => ?zero, fun c => ?off,
    rfl, rfl, rfl, rfl, rfl⟩
  case zero => rw [State.byteAt_construct, Memory.initial_above p.font a ha]
  case off => rw [State.disp_construct, Display.cell_blank]

end Sys2Proof.Proofs
end
